-- ==== Sys2Proof/Word.lean ====
section
/-! DEFINITION. The word type and the two native register widths (rules R6, R9 of spec/00_scope.md). -/

namespace Sys2Proof

/-- A value of an XLEN-bit port or register. XLEN is 32 or 64 (R6): with XLEN = 32 the upper half does not exist
on the hardware and is 0 in the model (`Config.fit` in Machine/Operands.lean cuts a value to its wires). -/
abbrev Word := BitVec 64

/-- The two legal values of the parameter `XLEN` (R6). -/
inductive XLen where
  | rv32
  | rv64
  deriving DecidableEq, Repr

/-- The width as a number. -/
def XLen.bits : XLen → Nat
  | .rv32 => 32
  | .rv64 => 64

/-- XLEN ones in the low bits. -/
def XLen.mask : XLen → Word
  | .rv32 => 0xFFFFFFFF#64
  | .rv64 => 0xFFFFFFFFFFFFFFFF#64

end Sys2Proof
end

