-- ==== Sys2Proof/Config.lean ====
section
/-! DEFINITION. The parameters of one block (rules R6, R7, R8 of spec/00_scope.md) and the free values. -/

namespace Sys2Proof

/-- The class of a CSR's access-mode code (R69, R76). -/
inductive AccClass where
  | readWrite
  | readOnly
  | noAccess
  deriving DecidableEq, Repr

/-- `ACC_DECODE` (R8), a function from a 2-bit code, held as its four values. -/
structure AccDecode where
  c00 : AccClass
  c01 : AccClass
  c10 : AccClass
  c11 : AccClass
  deriving DecidableEq, Repr

/-- The decided table (R69; spec/90_conflicts.md C1). -/
def AccDecode.decided : AccDecode :=
  { c00 := .readWrite, c01 := .readWrite, c10 := .readWrite, c11 := .readOnly }

/-- The table doc00 §6 prints, which spec/90_conflicts.md C1 rejects and keeps so that a model can try it. -/
def AccDecode.printed : AccDecode :=
  { c00 := .readOnly, c01 := .readOnly, c10 := .readWrite, c11 := .noAccess }

/-- The parameters of one block. `xlen`, `haveS`, `haveU`, `pcAlignMask` and `extW` are open; every other parameter of R8
carries the decided value as its default. `CODE_W` is 8 in the types. `illegalCode` is the surrounding hart's cause code
for an illegal instruction; no operation of the block reads it (R122; log entry 7). -/
structure Config where
  xlen : XLen
  haveS : Bool
  haveU : Bool
  accDecode : AccDecode := AccDecode.decided
  ctrLo : BitVec 12 := 0xC00#12
  ctrHi : BitVec 12 := 0xC1F#12
  ctrHiGated : Bool := false
  stimecmpA : BitVec 12 := 0x14D#12
  stimecmpB : BitVec 12 := 0x15D#12
  satpAddr : BitVec 12 := 0x180#12
  seedAddr : BitVec 12 := 0x015#12
  irqBits : Word := 0xAAA#64
  pcAlignMask : Word
  extW : Nat
  illegalCode : BitVec 8 := 2#8
  deriving DecidableEq, Repr

/-- The configuration spec/95_test_vectors.md evaluates its vectors with: XLEN = 32, both modes, 0xFFFFFFFE; the payload
width is 8 there in effect (T6 passes 0xAB). DESIGN CHOICE, log entry 2. -/
def Config.vectors : Config :=
  { xlen := .rv32, haveS := true, haveU := true, pcAlignMask := 0xFFFFFFFE#64, extW := 8 }

/-- The parameters R8 decides hold their decided values. -/
abbrev Config.Decided (c : Config) : Prop :=
  c.accDecode = AccDecode.decided ∧ c.ctrLo = 0xC00#12 ∧ c.ctrHi = 0xC1F#12 ∧ c.ctrHiGated = false ∧
  c.stimecmpA = 0x14D#12 ∧ c.stimecmpB = 0x15D#12 ∧ c.satpAddr = 0x180#12 ∧ c.seedAddr = 0x015#12 ∧
  c.irqBits = 0xAAA#64

/-- The limits on the open parameters: `HAVE_S → HAVE_U` (R7); bits XLEN-1:2 of `PC_ALIGN_MASK` all 1 (R8). -/
abbrev Config.Legal (c : Config) : Prop :=
  (c.haveS = true → c.haveU = true) ∧ c.pcAlignMask ||| 3#64 = c.xlen.mask

/-- The free values: what a field whose reset value is "unspecified (legal)" (R42) takes in a reset cycle (R147). Applied
to the counter `fresh` of State. No body: nothing can evaluate it (log entry 4). -/
opaque Config.freeValue : Nat → BitVec 64

end Sys2Proof
end

