-- ==== Sys2Proof/Syntax.lean ====
section
/-! DEFINITION. Privileges, the command port's inputs, what the other agents do, and the instructions: one constructor per
row of spec/opcode_table.json (rules R11, R41, R61 to R68, R74). -/

namespace Sys2Proof

/-- A privilege level (R11); its 2-bit code is `Priv.code`. -/
inductive Priv where
  | user
  | supervisor
  | machine
  deriving DecidableEq, Repr

/-- The 1-bit fields of mstatus (R19). -/
inductive StatusBit where
  | sie
  | mie
  | spie
  | mpie
  | spp
  | mprv
  | tvm
  deriving DecidableEq, Repr

/-- The XLEN-bit registers a writer may write whole (R23, R24, R26, R27, R28). -/
inductive XReg where
  | mepc
  | sepc
  | mtval
  | stval
  | mtvec
  | stvec
  | medeleg
  | mideleg
  | mie
  | mip
  deriving DecidableEq, Repr

/-- One write of an agent other than the block (R41): any field of R18 to R31 but `cur_privilege`, which no such agent
writes. `mstatus`, `mcause` and `scause` write a whole register in its packed layout (R17, R19, R25). -/
inductive Write where
  | statusBit (f : StatusBit) (b : Bool)
  | mpp (v : BitVec 2)
  | xl (level : Priv) (v : BitVec 2)
  | mstatus (v : Word)
  | mcause (v : Word)
  | scause (v : Word)
  | reg (r : XReg) (v : Word)
  | mcounteren (v : BitVec 32)
  | scounteren (v : BitVec 32)
  | stce (b : Bool)
  deriving DecidableEq, Repr

/-- The block's input pins in one clock cycle: `rst` (R60), the command and the operand ports of R62. A port a command does
not use is ignored; left out in a literal, it carries 0. The payload port is `EXT_W` bits wide, held as a number. -/
structure Ports where
  rst : Bool := false
  cmdValid : Bool := false
  cmd : BitVec 4 := 0#4
  csrAddr : BitVec 12 := 0#12
  privArg : BitVec 2 := 0#2
  isWrite : Bool := false
  irqMask : Word := 0#64
  code : BitVec 8 := 0#8
  tgtPriv : BitVec 2 := 0#2
  isIntr : Bool := false
  pc : Word := 0#64
  infoValid : Bool := false
  info : Word := 0#64
  extValid : Bool := false
  extPayload : Nat := 0
  deriving DecidableEq, Repr

/-- What the caller has in hand when it executes an instruction of R74 (R83, R123, R131): the instruction's address,
whether the CSR is defined, the info and payload of the illegal-instruction exception it raises on failure, and the
Register File writes its data path performs if a CSR write is granted. The block sees none of it directly. -/
structure Caller where
  pc : Word := 0#64
  csrDefined : Bool := true
  info : Option Word := none
  ext : Option Nat := none
  writes : List Write := []
  deriving DecidableEq, Repr

/-- What the instruction at `pc` does, as far as the block sees it (R131): it is a word of R74; it is another instruction
that ends in an exception; or it is another instruction that does not. The address of a word stands in its `Caller`. -/
inductive HartAct where
  | word (w : BitVec 32) (ctx : Caller)
  | raises (code : BitVec 8) (pc : Word) (info : Option Word) (ext : Option Nat)
  | quiet (pc : Word)
  deriving DecidableEq, Repr

/-- The address the interrupt question of the step is asked for (R109, R131). -/
def HartAct.pc : HartAct → Word
  | .word _ ctx => ctx.pc
  | .raises _ pc _ _ => pc
  | .quiet pc => pc

/-- What the outside does next: a clock cycle with given input pins; a whole instruction step of the hart, which begins with
the interrupt question (R131, R157); an instruction word of the hart, which the caller turns into a command once that question
has been answered with none (R74, R131); or another agent's write between two operations (R41, R54). -/
inductive Input where
  | cycle (p : Ports)
  | hartStep (a : HartAct)
  | insn (w : BitVec 32) (ctx : Caller)
  | writer (w : Write)
  deriving DecidableEq, Repr

/-- The instructions: the nine operations with the operands of R64 (an optional operand, R67, is an `Option`), the seven
reserved command codes (R72), and the eight caller-side instructions of R74. Privilege operands are raw 2-bit codes,
because `0b10` can be presented (R71). -/
inductive Instr where
  | csrchk (csr : BitVec 12) (priv : BitVec 2) (isWrite : Bool)
  | irqsel (mask : Word)
  | irqres (priv : BitVec 2)
  | excres (code : BitVec 8) (priv : BitVec 2)
  | trapent (tgt : BitVec 2) (isIntr : Bool) (code : BitVec 8) (pc : Word) (info : Option Word) (ext : Option Nat)
  | mret
  | sret
  | exctake (code : BitVec 8) (pc : Word) (info : Option Word) (ext : Option Nat)
  | irqtake (pc : Word)
  | reserved9
  | reservedA
  | reservedB
  | reservedC
  | reservedD
  | reservedE
  | reservedF
  | rvMret (ctx : Caller)
  | rvSret (ctx : Caller)
  | rvCsrrw (csr : BitVec 12) (rs1 rd : BitVec 5) (ctx : Caller)
  | rvCsrrs (csr : BitVec 12) (rs1 rd : BitVec 5) (ctx : Caller)
  | rvCsrrc (csr : BitVec 12) (rs1 rd : BitVec 5) (ctx : Caller)
  | rvCsrrwi (csr : BitVec 12) (uimm rd : BitVec 5) (ctx : Caller)
  | rvCsrrsi (csr : BitVec 12) (uimm rd : BitVec 5) (ctx : Caller)
  | rvCsrrci (csr : BitVec 12) (uimm rd : BitVec 5) (ctx : Caller)
  deriving DecidableEq, Repr

end Sys2Proof
end

