-- ==== Sys2Proof/WellFormed.lean ====
section
/-! DEFINITION. Which instructions can stand on the ports of a block with given parameters: every XLEN-bit operand fits XLEN
and every payload fits `EXT_W` (rules R6, R62). A privilege code of `0b10` can be presented and is well formed: R71 gives
what it does. -/

namespace Sys2Proof

/-- The value has no bit at XLEN or above. -/
def Word.fits (c : Config) (v : Word) : Bool :=
  decide (v.toNat < 2 ^ c.xlen.bits)

/-- An absent value fits; a present one must. -/
def infoFits (c : Config) : Option Word → Bool
  | none => true
  | some v => Word.fits c v

/-- The payload has `EXT_W` bits. -/
def payloadFits (c : Config) : Option Nat → Bool
  | none => true
  | some n => decide (n < 2 ^ c.extW)

/-- What the caller hands over for an instruction fits the ports it will use. -/
def Caller.wellFormed (c : Config) (ctx : Caller) : Bool :=
  Word.fits c ctx.pc && infoFits c ctx.info && payloadFits c ctx.ext

/-- The check, constructor by constructor. -/
def Instr.wellFormed (c : Config) : Instr → Bool
  | .csrchk _ _ _ => true
  | .irqsel mask => Word.fits c mask
  | .irqres _ => true
  | .excres _ _ => true
  | .trapent _ _ _ pc info ext => Word.fits c pc && infoFits c info && payloadFits c ext
  | .mret => true
  | .sret => true
  | .exctake _ pc info ext => Word.fits c pc && infoFits c info && payloadFits c ext
  | .irqtake pc => Word.fits c pc
  | .reserved9 => true
  | .reservedA => true
  | .reservedB => true
  | .reservedC => true
  | .reservedD => true
  | .reservedE => true
  | .reservedF => true
  | .rvMret ctx => ctx.wellFormed c
  | .rvSret ctx => ctx.wellFormed c
  | .rvCsrrw _ _ _ ctx => ctx.wellFormed c
  | .rvCsrrs _ _ _ ctx => ctx.wellFormed c
  | .rvCsrrc _ _ _ ctx => ctx.wellFormed c
  | .rvCsrrwi _ _ _ ctx => ctx.wellFormed c
  | .rvCsrrsi _ _ _ ctx => ctx.wellFormed c
  | .rvCsrrci _ _ _ ctx => ctx.wellFormed c

end Sys2Proof
end

