-- ==== Sys2Proof/Decode.lean ====
section
/-! DEFINITION. The decoder, total on every input, and the encoder: the command port (rules R60 to R62, R64, R72), the
instruction words of R74, and the numbering of spec/opcode_table.json. There is no byte order (R48): a command is the
value of its ports. -/

namespace Sys2Proof

/-! ## The fields of a 32-bit instruction word (R74's table) -/

/-- Instruction bits 31:20. -/
def insnCsr (w : BitVec 32) : BitVec 12 := w.extractLsb' 20 12
/-- Instruction bits 19:15. -/
def insnRs1 (w : BitVec 32) : BitVec 5 := w.extractLsb' 15 5
/-- Instruction bits 14:12. -/
def insnFunct3 (w : BitVec 32) : BitVec 3 := w.extractLsb' 12 3
/-- Instruction bits 11:7. -/
def insnRd (w : BitVec 32) : BitVec 5 := w.extractLsb' 7 5
/-- Instruction bits 6:0. -/
def insnOpcode (w : BitVec 32) : BitVec 7 := w.extractLsb' 0 7

/-- Why an input holds no instruction, by name: it is a reset cycle (R147), a cycle without a command (R60), another
agent's write (R41), the interrupt question with which an instruction step of the hart begins (R131), or an instruction word
that is none of the eight of R74. -/
inductive NoInstr where
  | resetCycle
  | idleCycle
  | writerTurn (w : Write)
  | stepStart (a : HartAct)
  | outsideWord (w : BitVec 32)
  deriving DecidableEq, Repr

/-- An optional operand: a valid bit and a value (R67). -/
def optPort {α : Type} (valid : Bool) (v : α) : Option α :=
  if valid then some v else none

/-- The instruction a command code selects, with the operands it uses (R61, R64, R72). -/
def decodePorts (p : Ports) : Instr :=
  match p.cmd.toNat with
  | 0x0 => .csrchk p.csrAddr p.privArg p.isWrite
  | 0x1 => .irqsel p.irqMask
  | 0x2 => .irqres p.privArg
  | 0x3 => .excres p.code p.privArg
  | 0x4 => .trapent p.tgtPriv p.isIntr p.code p.pc (optPort p.infoValid p.info) (optPort p.extValid p.extPayload)
  | 0x5 => .mret
  | 0x6 => .sret
  | 0x7 => .exctake p.code p.pc (optPort p.infoValid p.info) (optPort p.extValid p.extPayload)
  | 0x8 => .irqtake p.pc
  | 0x9 => .reserved9
  | 0xA => .reservedA
  | 0xB => .reservedB
  | 0xC => .reservedC
  | 0xD => .reservedD
  | 0xE => .reservedE
  | _ => .reservedF

/-- The caller-side instruction of a word of R74's table, if it is one. -/
def decodeInsn (w : BitVec 32) (ctx : Caller) : Option Instr :=
  if w = 0x30200073#32 then some (.rvMret ctx)
  else if w = 0x10200073#32 then some (.rvSret ctx)
  else if insnOpcode w = 0b1110011#7 then
    match (insnFunct3 w).toNat with
    | 1 => some (.rvCsrrw (insnCsr w) (insnRs1 w) (insnRd w) ctx)
    | 2 => some (.rvCsrrs (insnCsr w) (insnRs1 w) (insnRd w) ctx)
    | 3 => some (.rvCsrrc (insnCsr w) (insnRs1 w) (insnRd w) ctx)
    | 5 => some (.rvCsrrwi (insnCsr w) (insnRs1 w) (insnRd w) ctx)
    | 6 => some (.rvCsrrsi (insnCsr w) (insnRs1 w) (insnRd w) ctx)
    | 7 => some (.rvCsrrci (insnCsr w) (insnRs1 w) (insnRd w) ctx)
    | _ => none
  else none

/-- The decoder. Reset wins over a command (R147); without `cmd_valid` there is none (R60). -/
def decode : Input → Except NoInstr Instr
  | .cycle p =>
    if p.rst then .error .resetCycle
    else if p.cmdValid then .ok (decodePorts p)
    else .error .idleCycle
  | .hartStep a => .error (.stepStart a)
  | .insn w ctx =>
    match decodeInsn w ctx with
    | some i => .ok i
    | none => .error (.outsideWord w)
  | .writer w => .error (.writerTurn w)

/-! ## The encoder -/

/-- A word of the CSR instructions: `csr[11:0] rs1 funct3 rd 1110011` (R74). -/
def csrInsnWord (csr : BitVec 12) (rs1 : BitVec 5) (funct3 : BitVec 3) (rd : BitVec 5) : BitVec 32 :=
  csr ++ rs1 ++ funct3 ++ rd ++ 0b1110011#7

/-- A command cycle with only the command code. -/
def bareCommand (cmd : BitVec 4) : Input := .cycle { cmdValid := true, cmd := cmd }

/-- The ports, or the word, of an instruction, from R61, R64, R67 and R74. Ports the operation does not use carry 0. -/
def encode : Instr → Input
  | .csrchk csr priv w => .cycle { cmdValid := true, cmd := 0x0#4, csrAddr := csr, privArg := priv, isWrite := w }
  | .irqsel mask => .cycle { cmdValid := true, cmd := 0x1#4, irqMask := mask }
  | .irqres priv => .cycle { cmdValid := true, cmd := 0x2#4, privArg := priv }
  | .excres code priv => .cycle { cmdValid := true, cmd := 0x3#4, code := code, privArg := priv }
  | .trapent tgt isIntr code pc info ext =>
    .cycle { cmdValid := true, cmd := 0x4#4, tgtPriv := tgt, isIntr := isIntr, code := code, pc := pc,
             infoValid := info.isSome, info := info.getD 0#64, extValid := ext.isSome, extPayload := ext.getD 0 }
  | .mret => bareCommand 0x5#4
  | .sret => bareCommand 0x6#4
  | .exctake code pc info ext =>
    .cycle { cmdValid := true, cmd := 0x7#4, code := code, pc := pc,
             infoValid := info.isSome, info := info.getD 0#64, extValid := ext.isSome, extPayload := ext.getD 0 }
  | .irqtake pc => .cycle { cmdValid := true, cmd := 0x8#4, pc := pc }
  | .reserved9 => bareCommand 0x9#4
  | .reservedA => bareCommand 0xA#4
  | .reservedB => bareCommand 0xB#4
  | .reservedC => bareCommand 0xC#4
  | .reservedD => bareCommand 0xD#4
  | .reservedE => bareCommand 0xE#4
  | .reservedF => bareCommand 0xF#4
  | .rvMret ctx => .insn 0b00110000001000000000000001110011#32 ctx
  | .rvSret ctx => .insn 0b00010000001000000000000001110011#32 ctx
  | .rvCsrrw csr rs1 rd ctx => .insn (csrInsnWord csr rs1 0b001#3 rd) ctx
  | .rvCsrrs csr rs1 rd ctx => .insn (csrInsnWord csr rs1 0b010#3 rd) ctx
  | .rvCsrrc csr rs1 rd ctx => .insn (csrInsnWord csr rs1 0b011#3 rd) ctx
  | .rvCsrrwi csr uimm rd ctx => .insn (csrInsnWord csr uimm 0b101#3 rd) ctx
  | .rvCsrrsi csr uimm rd ctx => .insn (csrInsnWord csr uimm 0b110#3 rd) ctx
  | .rvCsrrci csr uimm rd ctx => .insn (csrInsnWord csr uimm 0b111#3 rd) ctx

/-! ## The numbering of spec/opcode_table.json -/

/-- The input a table word stands for. The table gives a command row (format CMD4) its 4-bit code and no operand bits, so
its operand ports carry 0; the eight caller-side rows are 32-bit words, told apart by their width (log entry 9). -/
def tableInput (nbits w : Nat) : Input :=
  if nbits ≤ 8 ∨ w < 16 then bareCommand (BitVec.ofNat 4 w)
  else .insn (BitVec.ofNat 32 w) {}

/-- The instruction the decoder reads from a table word; none where it refuses. -/
def decodeTableWord (nbits w : Nat) : Option Instr :=
  match decode (tableInput nbits w) with
  | .ok i => some i
  | .error _ => none

end Sys2Proof
end

