-- ==== Sys2Proof/Machine/State.lean ====
section
/-! DEFINITION. The machine's state as plain data (rules R16 to R40 of spec/10_state.md), the reasons a step can stop, and
the state right after reset (R42). -/

namespace Sys2Proof.Machine

/-- mstatus (R19): the named fields, and the bits of the packed register that belong to none of them, which no operation
of the block touches. `mpp` is a raw 2-bit code, because a writer can leave `0b10` in it (R20). `mxl` has no position. -/
structure Mstatus where
  sie : Bool
  mie : Bool
  spie : Bool
  mpie : Bool
  spp : Bool
  mpp : BitVec 2
  mprv : Bool
  tvm : Bool
  uxl : BitVec 2
  sxl : BitVec 2
  mxl : BitVec 2
  other : Word
  deriving DecidableEq, Repr

/-- A cause register (R25): the interrupt flag, and the code of XLEN-1 bits (with XLEN = 32 its upper 32 bits are 0). -/
structure Cause where
  intr : Bool
  code : BitVec 63
  deriving DecidableEq, Repr

/-- The Register File (R16 to R31). -/
structure RegFile where
  curPrivilege : Priv
  mstatus : Mstatus
  mcause : Cause
  scause : Cause
  mepc : Word
  sepc : Word
  mtval : Word
  stval : Word
  mtvec : Word
  stvec : Word
  medeleg : Word
  mideleg : Word
  mie : Word
  mip : Word
  mcounteren : BitVec 32
  scounteren : BitVec 32
  stce : Bool
  deriving DecidableEq, Repr

/-- The fatal latch (R39). -/
structure FatalLatch where
  fatal : Bool
  code : BitVec 4
  deriving DecidableEq, Repr

/-- The result ports of one cycle (R63). Left out in a literal, a port is 0. -/
structure Results where
  allowed : Bool := false
  resValid : Bool := false
  resCode : BitVec 8 := 0#8
  resPriv : BitVec 2 := 0#2
  nextPcValid : Bool := false
  nextPc : Word := 0#64
  cancelReservation : Bool := false
  extHookValid : Bool := false
  extHookPriv : BitVec 2 := 0#2
  extHookPc : Word := 0#64
  extHookPayloadValid : Bool := false
  extHookPayload : Nat := 0
  fatal : Bool := false
  fatalCode : BitVec 4 := 0#4
  cmdErr : Bool := false
  deriving DecidableEq, Repr

/-- The state: the parameters of this block, which no step changes (R38; log entry 2); the Register File; the fatal latch;
the result ports as driven in the last cycle (log entry 3); what the outside presents next, first entry first (log entry
1); and the model's own counter from which reset cycles draw free values (log entry 4). -/
structure State where
  cfg : Config
  rf : RegFile
  latch : FatalLatch
  out : Results
  inputs : List Input
  fresh : Nat
  deriving DecidableEq, Repr

/-- The Fatal outcomes (R135, R137). Each stops the machine: R136 says that a model gives a Fatal operation no next state.
Safe: the hardware holds its Register File, sets the fatal latch and refuses every command until reset. -/
inductive Fault where
  /-- Raised by TRAPENT: the target is User (R99). Safe. -/
  | targetUser
  /-- Raised by TRAPENT: the target is Supervisor and `HAVE_S` is false (R100). Safe. -/
  | sTargetNoS
  /-- Raised by TRAPENT: the target is Supervisor and the current privilege is Machine (R100). Safe. -/
  | sppFromMachine
  /-- Raised by SRET: `HAVE_S` is false (R116). Safe. -/
  | sretNoS
  /-- Raised by TRAPENT with target code `0b10` (R71), and by MRET when MPP holds `0b10` (R113). Safe. -/
  | privInvalid
  /-- Raised by TRAPENT, EXCTAKE and IRQTAKE: the target's trap-vector register has MODE 2 or 3 (R98, R105). Safe. -/
  | tvecMode
  deriving DecidableEq, Repr

/-- The Refused outcomes: R12 maps `Refused` to a refusal. Safe: the hardware changes no state and goes on. -/
inductive Refusal where
  /-- Raised by exec for an instruction without a meaning; none is left. Safe. -/
  | notModelled (mnemonic : String)
  /-- Raised by the reserved command codes 0x9 to 0xF (R72). Safe. -/
  | reservedCommand (cmd : BitVec 4)
  /-- Raised by CSRCHK, IRQRES and EXCRES when `priv_arg` is `0b10` (R71). Safe. -/
  | privilegeOperand
  /-- Raised by every command while the fatal latch is set; carries the latched code (R73). Safe. -/
  | afterFatal (code : BitVec 4)
  /-- Raised by step: the caller executes an instruction word that is none of the eight of R74; what it does is outside
  the block (R4). Safe. -/
  | outsideWord (w : BitVec 32)
  deriving DecidableEq, Repr

/-- mstatus after reset: MIE, SIE, MPRV and TVM are 0 (R42); the other fields have no reset value, and 0 is this model's
choice (log entry 5). -/
def Mstatus.reset : Mstatus :=
  { sie := false, mie := false, spie := false, mpie := false, spp := false, mpp := 0b00#2, mprv := false, tvm := false,
    uxl := 0#2, sxl := 0#2, mxl := 0#2, other := 0#64 }

/-- The Register File after reset (R42). The cause, epc, tval and tvec registers have no reset value; 0 is this model's
choice (log entry 5). -/
def RegFile.reset : RegFile :=
  { curPrivilege := .machine, mstatus := Mstatus.reset, mcause := { intr := false, code := 0#63 },
    scause := { intr := false, code := 0#63 }, mepc := 0#64, sepc := 0#64, mtval := 0#64, stval := 0#64,
    mtvec := 0#64, stvec := 0#64, medeleg := 0#64, mideleg := 0#64, mie := 0#64, mip := 0#64,
    mcounteren := 0#32, scounteren := 0#32, stce := false }

/-- The latch after reset (R42), and "no Fatal outcome since reset" (R137). -/
def FatalLatch.clear : FatalLatch := { fatal := false, code := 0#4 }

/-- The machine right after reset (R42), for a block with the parameters of the spec's vectors (log entry 2), with nothing
presented. -/
def State.reset : State :=
  { cfg := Config.vectors, rf := RegFile.reset, latch := FatalLatch.clear, out := {}, inputs := [], fresh := 0 }

end Sys2Proof.Machine
end

