-- ==== Sys2Proof/Machine/Operands.lean ====
section
/-! DEFINITION. Operand forms: the wires of a port, privilege codes, optional operands, the CSR address fields, the trap
vector's fields, effective delegation masks (rules R9, R11, R26, R27, R62 to R71). -/

namespace Sys2Proof.Machine

/-- A value as the XLEN wires of a port or register carry it (R6); sums cut this way wrap modulo 2^XLEN (R9, R47). -/
def fit (c : Config) (v : Word) : Word := v &&& c.xlen.mask

/-- A payload as the `EXT_W` wires carry it (R62). -/
def fitPayload (c : Config) (n : Nat) : Nat := n % 2 ^ c.extW

/-- The 2-bit code of a privilege (R11). -/
def privCode : Priv → BitVec 2
  | .user => 0b00#2
  | .supervisor => 0b01#2
  | .machine => 0b11#2

/-- The privilege a 2-bit code stands for; `0b10` codes none (R11). -/
def privOfCode (b : BitVec 2) : Option Priv :=
  if b = 0b00#2 then some .user
  else if b = 0b01#2 then some .supervisor
  else if b = 0b11#2 then some .machine
  else none

/-- `p <u q` on the codes, which is `p < q` in the enumeration (R11). -/
def privLt (p q : Priv) : Bool := (privCode p).ult (privCode q)

/-- Auxiliary info as it enters the trap-value register: "zero if absent" (R67, R103). -/
def infoOrZero (c : Config) : Option Word → Word
  | some v => fit c v
  | none => 0#64

/-- A code operand as it enters the cause register, zero-extended (R67). -/
def causeCode (code : BitVec 8) : BitVec 63 := code.setWidth 63

/-- The access-mode code of a CSR address, bits 11:10 (R68). -/
def csrAcc (csr : BitVec 12) : BitVec 2 := csr.extractLsb' 10 2

/-- The minimum-privilege code of a CSR address, bits 9:8 (R68). -/
def csrMinPriv (csr : BitVec 12) : BitVec 2 := csr.extractLsb' 8 2

/-- The counter index of a CSR address, bits 4:0 (R79). -/
def csrCounterIndex (csr : BitVec 12) : BitVec 5 := csr.extractLsb' 0 5

/-- `ACC_DECODE(acc)` (R8, R69). -/
def accClass (d : AccDecode) (acc : BitVec 2) : AccClass :=
  if acc = 0b00#2 then d.c00
  else if acc = 0b01#2 then d.c01
  else if acc = 0b10#2 then d.c10
  else d.c11

/-- MODE of a trap-vector register, bits 1:0 (R26). -/
def tvecMode (tvec : Word) : BitVec 2 := tvec.extractLsb' 0 2

/-- BASE of a trap-vector register with two 0 bits below it (R105). -/
def tvecBase (c : Config) (tvec : Word) : Word := fit c tvec &&& ~~~3#64

/-- `medeleg_eff` (R27). -/
def medelegEff (c : Config) (rf : RegFile) : Word := if c.haveS then rf.medeleg else 0#64

/-- `mideleg_eff` (R27). -/
def midelegEff (c : Config) (rf : RegFile) : Word := if c.haveS then rf.mideleg else 0#64

/-- `PC_ALIGN_MASK` applied to a return address (R117). -/
def alignPc (c : Config) (v : Word) : Word := fit c (v &&& c.pcAlignMask)

end Sys2Proof.Machine
end

