-- ==== Sys2Proof/Machine/Flags.lean ====
section
/-! DEFINITION. What happens to the fields of mstatus: trap entry and trap return for each level (rules R101, R102, R113,
R115), and the packed layouts of mstatus and the cause registers (R17, R19, R25). -/

namespace Sys2Proof.Machine

/-- mstatus in a Machine-target trap entry (R101): MPIE takes the old MIE, MPP the old privilege. -/
def Mstatus.enterMachine (cur : Priv) (m : Mstatus) : Mstatus :=
  { m with mpie := m.mie, mie := false, mpp := privCode cur }

/-- mstatus in a Supervisor-target trap entry (R102). -/
def Mstatus.enterSupervisor (cur : Priv) (m : Mstatus) : Mstatus :=
  { m with spie := m.sie, sie := false, spp := decide (cur = .supervisor) }

/-- mstatus in an MRET that returns to `newp` (R113). -/
def Mstatus.leaveMachine (c : Config) (newp : Priv) (m : Mstatus) : Mstatus :=
  { m with
    mie := m.mpie, mpie := true, mpp := if c.haveU then privCode .user else privCode .machine,
    mprv := if newp = .machine then m.mprv else false }

/-- mstatus in an SRET that returns to `newp` (R115). -/
def Mstatus.leaveSupervisor (newp : Priv) (m : Mstatus) : Mstatus :=
  { m with
    sie := m.spie, spie := true, spp := false,
    mprv := if newp = .machine then m.mprv else false }

/-! ## Packed layouts -/

/-- One bit at a position. -/
def bitAt (pos : Nat) (b : Bool) : Word := if b then 1#64 <<< pos else 0#64

/-- A 2-bit field at a position. -/
def pairAt (pos : Nat) (v : BitVec 2) : Word := v.setWidth 64 <<< pos

/-- The positions of mstatus that hold a named field (R19); UXL and SXL have a position only with XLEN = 64. -/
def mstatusFieldMask : XLen → Word
  | .rv32 => 0x1219AA#64
  | .rv64 => 0xF001219AA#64

/-- mstatus as a writer reads it whole (R17, R19). -/
def Mstatus.pack (x : XLen) (m : Mstatus) : Word :=
  bitAt 1 m.sie ||| bitAt 3 m.mie ||| bitAt 5 m.spie ||| bitAt 7 m.mpie ||| bitAt 8 m.spp ||| pairAt 11 m.mpp |||
  bitAt 17 m.mprv ||| bitAt 20 m.tvm |||
  (match x with
   | .rv32 => 0#64
   | .rv64 => pairAt 32 m.uxl ||| pairAt 34 m.sxl) |||
  m.other

/-- mstatus as a writer leaves it when it writes the packed register whole (R17, R19). Nothing is legalised
(spec/91_not_in_source.md N6). Fields without a position in this width keep their values. -/
def Mstatus.unpack (x : XLen) (v : Word) (m : Mstatus) : Mstatus :=
  { sie := v.getLsbD 1, mie := v.getLsbD 3, spie := v.getLsbD 5, mpie := v.getLsbD 7, spp := v.getLsbD 8,
    mpp := v.extractLsb' 11 2, mprv := v.getLsbD 17, tvm := v.getLsbD 20,
    uxl := (match x with | .rv32 => m.uxl | .rv64 => v.extractLsb' 32 2),
    sxl := (match x with | .rv32 => m.sxl | .rv64 => v.extractLsb' 34 2),
    mxl := m.mxl,
    other := v &&& x.mask &&& ~~~mstatusFieldMask x }

/-- The bits a cause code may have: XLEN-1 ones (R25). -/
def causeCodeMask : XLen → BitVec 63
  | .rv32 => 0x7FFFFFFF#63
  | .rv64 => 0x7FFFFFFFFFFFFFFF#63

/-- A cause register read whole: the flag at bit XLEN-1, the code below it (R25). -/
def Cause.pack (x : XLen) (k : Cause) : Word :=
  bitAt (x.bits - 1) k.intr ||| k.code.setWidth 64

/-- A cause register written whole (R25). -/
def Cause.unpack (x : XLen) (v : Word) : Cause :=
  { intr := v.getLsbD (x.bits - 1), code := v.setWidth 63 &&& causeCodeMask x }

end Sys2Proof.Machine
end

