-- ==== Sys2Proof/Machine/Ops.lean ====
section
/-! DEFINITION. The shared operations: state updates, outcomes and result ports, resolving a trap's target, TAKING A TRAP
(rules R97 to R107) and returning from one (R113 to R118), the access check (R75 to R81), other agents' writes (R41), reset
(R147). -/

namespace Sys2Proof.Machine

abbrev Result := Host.Outcome State Fault Refusal

/-! ## State updates -/

def State.withRf (rf : RegFile) (s : State) : State := { s with rf := rf }
def State.withOut (r : Results) (s : State) : State := { s with out := r }
def State.withInputs (es : List Input) (s : State) : State := { s with inputs := es }

/-! ## Outcomes -/

/-- `fatal_code` (R137). -/
def Fault.code : Fault → BitVec 4
  | .targetUser => 1#4
  | .sTargetNoS => 2#4
  | .sppFromMachine => 3#4
  | .sretNoS => 4#4
  | .privInvalid => 5#4
  | .tvecMode => 6#4

/-- The latch an operation that ends in Fatal leaves on the hardware (R39). -/
def Fault.latch (f : Fault) : FatalLatch := { fatal := true, code := f.code }

/-- The result ports in the cycle of a Fatal command: 0 but for `fatal` and `fatal_code` (R63). -/
def Fault.results (f : Fault) : Results := { fatal := true, fatalCode := f.code }

/-- The result ports in the cycle of a Refused command: `cmd_err` = 1, every other 0, but for `fatal` and `fatal_code`,
which a set latch still drives (R72, R73). A refusal of step outside the block drives nothing. -/
def Refusal.results : Refusal → Results
  | .reservedCommand _ => { cmdErr := true }
  | .privilegeOperand => { cmdErr := true }
  | .afterFatal code => { cmdErr := true, fatal := true, fatalCode := code }
  | _ => {}

/-- The result ports of the cycle that ends in an outcome (R63). -/
def resultPorts : Result → Results
  | .next t => t.out
  | .fault f => f.results
  | .refused r => r.results

/-- A command runs only while the fatal latch is clear; otherwise it is Refused, whatever its code (R73). -/
def whenLive (s : State) (k : Result) : Result :=
  if s.latch.fatal then .refused (.afterFatal s.latch.code) else k

/-- A pure operation runs for a privilege operand that codes a privilege; `0b10` is Refused (R71). -/
def withPriv (b : BitVec 2) (k : Priv → Result) : Result :=
  match privOfCode b with
  | some p => k p
  | none => .refused .privilegeOperand

/-- A pure operation answers: the result ports are driven, nothing is written (R84, R87, R95). -/
def answer (r : Results) (s : State) : Result := .next (s.withOut r)

/-! ## The CSR access check -/

/-- R76: no access to a NoAccess CSR, no write to a ReadOnly one. -/
def accessModeOk (c : Config) (csr : BitVec 12) (isWrite : Bool) : Bool :=
  match accClass c.accDecode (csrAcc csr) with
  | .noAccess => false
  | .readOnly => !isWrite
  | .readWrite => true

/-- R77. -/
def privilegeOk (csr : BitVec 12) (p : Priv) : Bool := (csrMinPriv csr).ule (privCode p)

/-- R78. -/
def tvmOk (c : Config) (rf : RegFile) (csr : BitVec 12) (p : Priv) : Bool :=
  !(decide (csr = c.satpAddr) && decide (p = .supervisor) && rf.mstatus.tvm)

/-- `in_ctr` (R79). -/
def inCounterRange (c : Config) (csr : BitVec 12) : Bool :=
  (c.ctrLo.ule csr && csr.ule c.ctrHi) ||
  (c.ctrHiGated && (0xC80#12).ule csr && csr.ule 0xC9F#12)

/-- R79. -/
def counterOk (c : Config) (rf : RegFile) (csr : BitVec 12) (p : Priv) : Bool :=
  if inCounterRange c csr then
    let i := (csrCounterIndex csr).toNat
    match p with
    | .machine => true
    | .supervisor => rf.mcounteren.getLsbD i
    | .user => rf.mcounteren.getLsbD i && (!c.haveS || rf.scounteren.getLsbD i)
  else true

/-- R80. -/
def timeCompareOk (c : Config) (rf : RegFile) (csr : BitVec 12) (p : Priv) : Bool :=
  if csr = c.stimecmpA ∨ csr = c.stimecmpB then
    match p with
    | .machine => true
    | .supervisor => rf.mcounteren.getLsbD 1 && rf.stce
    | .user => false
  else true

/-- R81. -/
def entropyOk (c : Config) (csr : BitVec 12) (p : Priv) (isWrite : Bool) : Bool :=
  if csr = c.seedAddr then isWrite && decide (p = .machine) else true

/-- `can_access`: the six conjuncts in the source's order (R75). -/
def canAccess (c : Config) (rf : RegFile) (csr : BitVec 12) (p : Priv) (isWrite : Bool) : Bool :=
  accessModeOk c csr isWrite && privilegeOk csr p && tvmOk c rf csr p && counterOk c rf csr p &&
  timeCompareOk c rf csr p && entropyOk c csr p isWrite

/-! ## Selecting an interrupt and resolving a target -/

/-- `select_pending` (R85, R86): MEI, MSI, MTI, SEI, SSI, STI. -/
def selectPending (m : Word) : Option (BitVec 8) :=
  if m.getLsbD 11 then some 11#8
  else if m.getLsbD 3 then some 3#8
  else if m.getLsbD 7 then some 7#8
  else if m.getLsbD 9 then some 9#8
  else if m.getLsbD 1 then some 1#8
  else if m.getLsbD 5 then some 5#8
  else none

/-- Pending and enabled, the sources the block looks at (R90). -/
def pendingEnabled (c : Config) (rf : RegFile) : Word := rf.mip &&& rf.mie &&& c.irqBits

/-- The Machine-owned candidates (R90). -/
def machineOwned (c : Config) (rf : RegFile) : Word := pendingEnabled c rf &&& ~~~midelegEff c rf

/-- The Supervisor-owned candidates (R90). -/
def supervisorOwned (c : Config) (rf : RegFile) : Word := pendingEnabled c rf &&& midelegEff c rf

/-- `m_vis` (R91). -/
def machineVisible (rf : RegFile) (p : Priv) : Bool :=
  privLt p .machine || (decide (p = .machine) && rf.mstatus.mie)

/-- `s_vis` (R91). -/
def supervisorVisible (rf : RegFile) (p : Priv) : Bool :=
  decide (p = .user) || (decide (p = .supervisor) && rf.mstatus.sie)

/-- `resolve_interrupt_target` (R92). -/
def resolveInterrupt (c : Config) (rf : RegFile) (p : Priv) : Option (BitVec 8 × Priv) :=
  if machineVisible rf p && decide (machineOwned c rf ≠ 0#64) then
    (selectPending (machineOwned c rf)).map fun code => (code, .machine)
  else if supervisorVisible rf p && decide (supervisorOwned c rf ≠ 0#64) then
    (selectPending (supervisorOwned c rf)).map fun code => (code, .supervisor)
  else none

/-- The delegation bit of an exception code; a code of XLEN or more has none (R93). -/
def exceptionDelegated (c : Config) (rf : RegFile) (code : BitVec 8) : Bool :=
  decide (code.toNat < c.xlen.bits) && (medelegEff c rf).getLsbD code.toNat

/-- `resolve_exception_target`, with the monotonic clamp (R93, R94). -/
def resolveException (c : Config) (rf : RegFile) (code : BitVec 8) (p : Priv) : Priv :=
  let t : Priv := if exceptionDelegated c rf code then .supervisor else .machine
  if privLt t p then p else t

/-! ## Taking a trap -/

/-- One trap occurrence (R66, the source's TrapContext). -/
structure TrapContext where
  isIntr : Bool
  code : BitVec 8
  pc : Word
  info : Option Word
  ext : Option Nat
  deriving DecidableEq, Repr

/-- A level a trap can enter; User is never one (R99). -/
inductive TrapLevel where
  | machine
  | supervisor
  deriving DecidableEq, Repr

def trapLevelPriv : TrapLevel → Priv
  | .machine => .machine
  | .supervisor => .supervisor

/-- The trap-vector register of a level (R105). -/
def tvecOf (rf : RegFile) : TrapLevel → Word
  | .machine => rf.mtvec
  | .supervisor => rf.stvec

/-- The last of the checks: a reserved MODE of the target's own trap-vector register (R98, R105). -/
def checkMode (rf : RegFile) (l : TrapLevel) : Except Fault TrapLevel :=
  if (2#2).ule (tvecMode (tvecOf rf l)) then .error .tvecMode else .ok l

/-- `check_entry`: the first condition that holds ends the operation, before any write (R98). -/
def checkEntry (c : Config) (rf : RegFile) (tgt : BitVec 2) : Except Fault TrapLevel :=
  match privOfCode tgt with
  | none => .error .privInvalid
  | some .user => .error .targetUser
  | some .supervisor =>
    if !c.haveS then .error .sTargetNoS
    else if rf.curPrivilege = .machine then .error .sppFromMachine
    else checkMode rf .supervisor
  | some .machine => checkMode rf .machine

/-- `tvec_addr`: direct, or vectored for interrupts, modulo 2^XLEN (R105). -/
def tvecAddr (c : Config) (tvec : Word) (isIntr : Bool) (code : BitVec 8) : Word :=
  if tvecMode tvec = 1#2 ∧ isIntr = true then fit c (tvecBase c tvec + code.setWidth 64 <<< 2)
  else tvecBase c tvec

/-- The writes of a Machine-target commit (R101). -/
def commitMachine (c : Config) (tc : TrapContext) (rf : RegFile) : RegFile :=
  { rf with
    mcause := { intr := tc.isIntr, code := causeCode tc.code }
    mstatus := rf.mstatus.enterMachine rf.curPrivilege
    mtval := infoOrZero c tc.info
    mepc := fit c tc.pc
    curPrivilege := .machine }

/-- The writes of a Supervisor-target commit (R102). -/
def commitSupervisor (c : Config) (tc : TrapContext) (rf : RegFile) : RegFile :=
  { rf with
    scause := { intr := tc.isIntr, code := causeCode tc.code }
    mstatus := rf.mstatus.enterSupervisor rf.curPrivilege
    stval := infoOrZero c tc.info
    sepc := fit c tc.pc
    curPrivilege := .supervisor }

/-- The writes of a trap entry at a level. -/
def commitTrap (c : Config) (l : TrapLevel) (tc : TrapContext) (rf : RegFile) : RegFile :=
  match l with
  | .machine => commitMachine c tc rf
  | .supervisor => commitSupervisor c tc rf

/-- The result ports of a trap entry: the handler's address, one cancellation (R106), one hook call with the operands
passed through (R104). `base` holds what a composite operation drives besides. DESIGN CHOICE, log entry 21: without a payload
(`ext_valid` = 0) the value port of the hook is driven 0, whatever the payload port carried. -/
def entryResults (c : Config) (rf : RegFile) (l : TrapLevel) (tc : TrapContext) (base : Results) : Results :=
  { base with
    nextPcValid := true
    nextPc := tvecAddr c (tvecOf rf l) tc.isIntr tc.code
    cancelReservation := true
    extHookValid := true
    extHookPriv := privCode (trapLevelPriv l)
    extHookPc := fit c tc.pc
    extHookPayloadValid := tc.ext.isSome
    extHookPayload := match tc.ext with
      | some n => fitPayload c n
      | none => 0 }

/-- Taking a trap (R97): the checks, then one atomic commit. -/
def takeTrap (tgt : BitVec 2) (tc : TrapContext) (base : Results) (s : State) : Result :=
  match checkEntry s.cfg s.rf tgt with
  | .error f => .fault f
  | .ok l => .next ((s.withRf (commitTrap s.cfg l tc s.rf)).withOut (entryResults s.cfg s.rf l tc base))

/-- Taking a synchronous exception: resolve its target for the current privilege, then enter (R108). -/
def takeException (code : BitVec 8) (pc : Word) (info : Option Word) (ext : Option Nat) (s : State) : Result :=
  let t := resolveException s.cfg s.rf code s.rf.curPrivilege
  takeTrap (privCode t) { isIntr := false, code := code, pc := pc, info := info, ext := ext }
    { resPriv := privCode t } s

/-- Taking the highest-priority interrupt, if any: no info, no payload (R109). -/
def takeInterrupt (pc : Word) (s : State) : Result :=
  match resolveInterrupt s.cfg s.rf s.rf.curPrivilege with
  | none => answer {} s
  | some (code, t) =>
    takeTrap (privCode t) { isIntr := true, code := code, pc := pc, info := none, ext := none }
      { resValid := true, resCode := code, resPriv := privCode t } s

/-! ## Returning from a trap -/

/-- The result ports of a trap return: the address, one cancellation (R63, R118). -/
def returnResults (nextPc : Word) : Results :=
  { nextPcValid := true, nextPc := nextPc, cancelReservation := true }

/-- MRET (R113). It does not look at the current privilege (R116). -/
def machineReturn (s : State) : Result :=
  match privOfCode s.rf.mstatus.mpp with
  | none => .fault .privInvalid
  | some newp =>
    .next ((s.withRf { s.rf with mstatus := s.rf.mstatus.leaveMachine s.cfg newp, curPrivilege := newp }).withOut
      (returnResults (alignPc s.cfg s.rf.mepc)))

/-- SRET (R115). It does not look at the current privilege; it re-checks `HAVE_S` (R116). -/
def supervisorReturn (s : State) : Result :=
  if s.cfg.haveS then
    let newp : Priv := if s.rf.mstatus.spp then .supervisor else .user
    .next ((s.withRf { s.rf with mstatus := s.rf.mstatus.leaveSupervisor newp, curPrivilege := newp }).withOut
      (returnResults (alignPc s.cfg s.rf.sepc)))
  else .fault .sretNoS

/-! ## Other agents' writes -/

def Mstatus.setBit (f : StatusBit) (b : Bool) (m : Mstatus) : Mstatus :=
  match f with
  | .sie => { m with sie := b }
  | .mie => { m with mie := b }
  | .spie => { m with spie := b }
  | .mpie => { m with mpie := b }
  | .spp => { m with spp := b }
  | .mprv => { m with mprv := b }
  | .tvm => { m with tvm := b }

/-- UXL, SXL and MXL (R22). -/
def Mstatus.setXl (level : Priv) (v : BitVec 2) (m : Mstatus) : Mstatus :=
  match level with
  | .user => { m with uxl := v }
  | .supervisor => { m with sxl := v }
  | .machine => { m with mxl := v }

def RegFile.setReg (r : XReg) (v : Word) (rf : RegFile) : RegFile :=
  match r with
  | .mepc => { rf with mepc := v }
  | .sepc => { rf with sepc := v }
  | .mtval => { rf with mtval := v }
  | .stval => { rf with stval := v }
  | .mtvec => { rf with mtvec := v }
  | .stvec => { rf with stvec := v }
  | .medeleg => { rf with medeleg := v }
  | .mideleg => { rf with mideleg := v }
  | .mie => { rf with mie := v }
  | .mip => { rf with mip := v }

/-- One write of another agent (R41). The value is taken as it comes; only bits beyond the register do not exist. -/
def applyWrite (c : Config) (w : Write) (rf : RegFile) : RegFile :=
  match w with
  | .statusBit f b => { rf with mstatus := rf.mstatus.setBit f b }
  | .mpp v => { rf with mstatus := { rf.mstatus with mpp := v } }
  | .xl level v => { rf with mstatus := rf.mstatus.setXl level v }
  | .mstatus v => { rf with mstatus := rf.mstatus.unpack c.xlen v }
  | .mcause v => { rf with mcause := Cause.unpack c.xlen v }
  | .scause v => { rf with scause := Cause.unpack c.xlen v }
  | .reg r v => rf.setReg r (fit c v)
  | .mcounteren v => { rf with mcounteren := v }
  | .scounteren v => { rf with scounteren := v }
  | .stce b => { rf with stce := b }

/-- Another agent writes: between two operations, so the block drives nothing (R41, R54). -/
def writerCycle (w : Write) (s : State) : State :=
  (s.withRf (applyWrite s.cfg w s.rf)).withOut {}

/-! ## Cycles without a command -/

/-- A cycle without a command: no state changes, every result port is 0 (R60). -/
def idleCycle (s : State) : State := s.withOut {}

/-- How many free values one reset cycle draws. -/
def freePerReset : Nat := 16

/-- A legal MPP (R41): the free code, unless it is `0b10`. -/
def legalMpp (b : BitVec 2) : BitVec 2 := if b = 0b10#2 then 0b11#2 else b

/-- A legal trap-vector register after reset: any BASE, MODE 0 or 1 (R42). -/
def legalTvec (c : Config) (v : Word) : Word := fit c v &&& ~~~2#64

/-- The Register File after a reset cycle: the values of R42, and a free legal value in every field R42 calls
"unspecified (legal)" (R147). -/
def resetRf (c : Config) (n : Nat) : RegFile :=
  { RegFile.reset with
    mstatus := { Mstatus.reset with
      mpie := (Config.freeValue n).getLsbD 0
      spie := (Config.freeValue n).getLsbD 1
      spp := (Config.freeValue n).getLsbD 2
      mpp := legalMpp ((Config.freeValue (n + 1)).setWidth 2)
      uxl := (Config.freeValue (n + 2)).setWidth 2
      sxl := (Config.freeValue (n + 3)).setWidth 2
      mxl := (Config.freeValue (n + 4)).setWidth 2
      other := Config.freeValue (n + 5) &&& c.xlen.mask &&& ~~~mstatusFieldMask c.xlen }
    mcause := Cause.unpack c.xlen (Config.freeValue (n + 6))
    scause := Cause.unpack c.xlen (Config.freeValue (n + 7))
    mepc := fit c (Config.freeValue (n + 8))
    sepc := fit c (Config.freeValue (n + 9))
    mtval := fit c (Config.freeValue (n + 10))
    stval := fit c (Config.freeValue (n + 11))
    mtvec := legalTvec c (Config.freeValue (n + 12))
    stvec := legalTvec c (Config.freeValue (n + 13)) }

/-- A cycle with `rst` = 1 (R147): the Register File is created anew, the fatal latch is cleared, nothing is driven. -/
def resetCycle (s : State) : State :=
  { s with
    rf := resetRf s.cfg s.fresh
    latch := FatalLatch.clear
    out := {}
    fresh := s.fresh + freePerReset }

end Sys2Proof.Machine
end

