-- ==== Sys2Proof/Machine/TrapEntry.lean ====
section
/-! DEFINITION. TRAPENT, EXCTAKE and IRQTAKE (spec/43_trap_entry.md). -/

namespace Sys2Proof.Machine

/-- TRAPENT (R97). -/
def execTrapent (tgt : BitVec 2) (isIntr : Bool) (code : BitVec 8) (pc : Word) (info : Option Word) (ext : Option Nat)
    (s : State) : Result :=
  whenLive s <| takeTrap tgt { isIntr := isIntr, code := code, pc := pc, info := info, ext := ext } {} s

/-- EXCTAKE (R108). -/
def execExctake (code : BitVec 8) (pc : Word) (info : Option Word) (ext : Option Nat) (s : State) : Result :=
  whenLive s <| takeException code pc info ext s

/-- IRQTAKE (R109). -/
def execIrqtake (pc : Word) (s : State) : Result :=
  whenLive s <| takeInterrupt pc s

end Sys2Proof.Machine
end

