-- ==== Sys2Proof/Machine/CallerSide.lean ====
section
/-! DEFINITION. The caller's side: the instruction step of the hart, which begins with the interrupt question (R128, R131,
R157; log entry 22), and the instructions of R74: which command the caller presents, after which checks of its own, and what
it presents next (R83, R131, R153 to R155; log entry 6). -/

namespace Sys2Proof.Machine

/-- What the instruction at `pc` makes the caller present once no interrupt preempts it (R131). -/
def followUp : HartAct → List Input
  | .word w ctx => [.insn w ctx]
  | .raises code pc info ext => [encode (.exctake code pc info ext)]
  | .quiet _ => []

/-- The first command of an instruction step: IRQTAKE at `pc`. If an interrupt is taken the step ends and the instruction does
not execute (R128); if none is, what the instruction presents comes before anything else (R131, R157). -/
def beginHartStep (a : HartAct) (s : State) : Result :=
  match execIrqtake a.pc s with
  | .next t => .next (if t.out.resValid then t else t.withInputs (followUp a ++ t.inputs))
  | .fault f => .fault f
  | .refused r => .refused r

/-- The caller raises illegal instruction itself: the exception comes to the block as an EXCTAKE (R83, R131). -/
def callerIllegal (ctx : Caller) (s : State) : Result :=
  takeException s.cfg.illegalCode ctx.pc ctx.info ctx.ext s

/-- What the caller does after CSRCHK (R83, R131): on a denial, or for an undefined CSR, it presents EXCTAKE for illegal
instruction and mutates nothing (R155); a granted write is its data path's own write to the Register File. -/
def afterCheck (c : Config) (allowed isWrite : Bool) (ctx : Caller) : List Input :=
  if ctx.csrDefined && allowed then
    if isWrite then ctx.writes.map .writer else []
  else [encode (.exctake c.illegalCode ctx.pc ctx.info ctx.ext)]

/-- A CSR instruction: the caller presents CSRCHK with the current privilege and the instruction's direction (R74, R155);
what follows is presented before anything else. -/
def presentCheck (csr : BitVec 12) (isWrite : Bool) (ctx : Caller) (s : State) : Result :=
  let allowed := canAccess s.cfg s.rf csr s.rf.curPrivilege isWrite
  .next ((s.withOut { allowed := allowed }).withInputs (afterCheck s.cfg allowed isWrite ctx ++ s.inputs))

/-- RV.MRET: the caller presents MRET after checking that the privilege is Machine (R74, R154). -/
def execRvMret (ctx : Caller) (s : State) : Result :=
  whenLive s <| if s.rf.curPrivilege = .machine then machineReturn s else callerIllegal ctx s

/-- RV.SRET: the caller presents SRET after checking `HAVE_S` and a privilege of at least Supervisor (R74, R153). -/
def execRvSret (ctx : Caller) (s : State) : Result :=
  whenLive s <|
    if s.cfg.haveS && !privLt s.rf.curPrivilege .supervisor then supervisorReturn s else callerIllegal ctx s

/-- RV.CSRRW: `is_write` = 1 (R74). -/
def execRvCsrrw (csr : BitVec 12) (_rs1 _rd : BitVec 5) (ctx : Caller) (s : State) : Result :=
  whenLive s <| presentCheck csr true ctx s

/-- RV.CSRRS: `is_write` = (rs1 != x0) (R74). -/
def execRvCsrrs (csr : BitVec 12) (rs1 _rd : BitVec 5) (ctx : Caller) (s : State) : Result :=
  whenLive s <| presentCheck csr (decide (rs1 ≠ 0#5)) ctx s

/-- RV.CSRRC: `is_write` = (rs1 != x0) (R74). -/
def execRvCsrrc (csr : BitVec 12) (rs1 _rd : BitVec 5) (ctx : Caller) (s : State) : Result :=
  whenLive s <| presentCheck csr (decide (rs1 ≠ 0#5)) ctx s

/-- RV.CSRRWI: `is_write` = 1 (R74). -/
def execRvCsrrwi (csr : BitVec 12) (_uimm _rd : BitVec 5) (ctx : Caller) (s : State) : Result :=
  whenLive s <| presentCheck csr true ctx s

/-- RV.CSRRSI: `is_write` = (uimm != 0) (R74). -/
def execRvCsrrsi (csr : BitVec 12) (uimm _rd : BitVec 5) (ctx : Caller) (s : State) : Result :=
  whenLive s <| presentCheck csr (decide (uimm ≠ 0#5)) ctx s

/-- RV.CSRRCI: `is_write` = (uimm != 0) (R74). -/
def execRvCsrrci (csr : BitVec 12) (uimm _rd : BitVec 5) (ctx : Caller) (s : State) : Result :=
  whenLive s <| presentCheck csr (decide (uimm ≠ 0#5)) ctx s

end Sys2Proof.Machine
end

