-- ==== Sys2Proof/Machine/CsrAccess.lean ====
section
/-! DEFINITION. CSRCHK (spec/40_csr_access.md). -/

namespace Sys2Proof.Machine

/-- CSRCHK (R75, R84): the privilege is the operand's, not the current one (R82). -/
def execCsrchk (csr : BitVec 12) (priv : BitVec 2) (isWrite : Bool) (s : State) : Result :=
  whenLive s <| withPriv priv fun p =>
    answer { allowed := canAccess s.cfg s.rf csr p isWrite } s

end Sys2Proof.Machine
end

