-- ==== Sys2Proof/Machine/Reserved.lean ====
section
/-! DEFINITION. The reserved command codes 0x9 to 0xF: Refused (rules R12, R72 of spec/). -/

namespace Sys2Proof.Machine

/-- A reserved code selects no operation (R72). -/
def refuseReserved (cmd : BitVec 4) (s : State) : Result := whenLive s <| .refused (.reservedCommand cmd)

def execReserved9 (s : State) : Result := refuseReserved 0x9#4 s
def execReservedA (s : State) : Result := refuseReserved 0xA#4 s
def execReservedB (s : State) : Result := refuseReserved 0xB#4 s
def execReservedC (s : State) : Result := refuseReserved 0xC#4 s
def execReservedD (s : State) : Result := refuseReserved 0xD#4 s
def execReservedE (s : State) : Result := refuseReserved 0xE#4 s
def execReservedF (s : State) : Result := refuseReserved 0xF#4 s

end Sys2Proof.Machine
end

