-- ==== Sys2Proof/Machine/Resolve.lean ====
section
/-! DEFINITION. IRQSEL, IRQRES and EXCRES (spec/41_interrupt_prioritizer.md, spec/42_privilege_delegator.md). -/

namespace Sys2Proof.Machine

/-- IRQSEL (R85, R87). -/
def execIrqsel (mask : Word) (s : State) : Result :=
  whenLive s <|
    match selectPending (fit s.cfg mask &&& s.cfg.irqBits) with
    | some code => answer { resValid := true, resCode := code } s
    | none => answer {} s

/-- IRQRES (R89, R95). -/
def execIrqres (priv : BitVec 2) (s : State) : Result :=
  whenLive s <| withPriv priv fun p =>
    match resolveInterrupt s.cfg s.rf p with
    | some (code, t) => answer { resValid := true, resCode := code, resPriv := privCode t } s
    | none => answer {} s

/-- EXCRES (R93, R95). -/
def execExcres (code : BitVec 8) (priv : BitVec 2) (s : State) : Result :=
  whenLive s <| withPriv priv fun p =>
    answer { resPriv := privCode (resolveException s.cfg s.rf code p) } s

end Sys2Proof.Machine
end

