-- ==== Sys2Proof/Machine/TrapReturn.lean ====
section
/-! DEFINITION. MRET and SRET (spec/44_trap_return.md). -/

namespace Sys2Proof.Machine

/-- MRET (R113). -/
def execMret (s : State) : Result := whenLive s <| machineReturn s

/-- SRET (R115). -/
def execSret (s : State) : Result := whenLive s <| supervisorReturn s

end Sys2Proof.Machine
end

