-- ==== Sys2Proof/Machine/Dispatch.lean ====
section
/-! DEFINITION. One arm per instruction. -/

namespace Sys2Proof.Machine

def exec (i : Instr) (s : State) : Host.Outcome State Fault Refusal :=
  match i with
  | .csrchk csr priv isWrite => Sys2Proof.Machine.execCsrchk csr priv isWrite s
  | .irqsel mask => Sys2Proof.Machine.execIrqsel mask s
  | .irqres priv => Sys2Proof.Machine.execIrqres priv s
  | .excres code priv => Sys2Proof.Machine.execExcres code priv s
  | .trapent tgt isIntr code pc info ext => Sys2Proof.Machine.execTrapent tgt isIntr code pc info ext s
  | .mret => Sys2Proof.Machine.execMret s
  | .sret => Sys2Proof.Machine.execSret s
  | .exctake code pc info ext => Sys2Proof.Machine.execExctake code pc info ext s
  | .irqtake pc => Sys2Proof.Machine.execIrqtake pc s
  | .reserved9 => Sys2Proof.Machine.execReserved9 s
  | .reservedA => Sys2Proof.Machine.execReservedA s
  | .reservedB => Sys2Proof.Machine.execReservedB s
  | .reservedC => Sys2Proof.Machine.execReservedC s
  | .reservedD => Sys2Proof.Machine.execReservedD s
  | .reservedE => Sys2Proof.Machine.execReservedE s
  | .reservedF => Sys2Proof.Machine.execReservedF s
  | .rvMret ctx => Sys2Proof.Machine.execRvMret ctx s
  | .rvSret ctx => Sys2Proof.Machine.execRvSret ctx s
  | .rvCsrrw csr rs1 rd ctx => Sys2Proof.Machine.execRvCsrrw csr rs1 rd ctx s
  | .rvCsrrs csr rs1 rd ctx => Sys2Proof.Machine.execRvCsrrs csr rs1 rd ctx s
  | .rvCsrrc csr rs1 rd ctx => Sys2Proof.Machine.execRvCsrrc csr rs1 rd ctx s
  | .rvCsrrwi csr uimm rd ctx => Sys2Proof.Machine.execRvCsrrwi csr uimm rd ctx s
  | .rvCsrrsi csr uimm rd ctx => Sys2Proof.Machine.execRvCsrrsi csr uimm rd ctx s
  | .rvCsrrci csr uimm rd ctx => Sys2Proof.Machine.execRvCsrrci csr uimm rd ctx s

end Sys2Proof.Machine
end

