-- ==== Sys2Proof/Machine/Step.lean ====
section
/-! DEFINITION. One step: the next thing the outside presents is taken from `inputs` and acted on (rules R50, R60, R147). -/

namespace Sys2Proof.Machine

/-- With nothing presented the block idles. A command or caller-side instruction is executed; every other input is a reset
cycle, an idle cycle, another agent's write, the start of an instruction step of the hart, or an instruction word outside the
block. -/
def step (s : State) : Host.Outcome State Fault Refusal :=
  match s.inputs with
  | [] => .next (idleCycle s)
  | e :: rest =>
    match decode e with
    | .ok i => exec i (s.withInputs rest)
    | .error .resetCycle => .next (resetCycle (s.withInputs rest))
    | .error .idleCycle => .next (idleCycle (s.withInputs rest))
    | .error (.writerTurn w) => .next (writerCycle w (s.withInputs rest))
    | .error (.stepStart a) => beginHartStep a (s.withInputs rest)
    | .error (.outsideWord w) => .refused (.outsideWord w)

/-- The table word's instruction presented next, before everything already in `inputs` (log entry 9). -/
def State.withFetchWord (s : State) (nbits w : Nat) : State :=
  s.withInputs (tableInput nbits w :: s.inputs)

end Sys2Proof.Machine
end

