-- ==== Sys2Proof/Safety.lean ====
section
/-! DEFINITION. The terms claims use: registers that fit XLEN, the duties of writers (R41, R159) and of the caller (R71, R131,
R153, R154, R157), the invariant of the machine, and what a safe run is (R135, R136). -/

namespace Sys2Proof.Machine

/-- The fatal latch is clear, so commands run (R73). -/
abbrev State.Live (s : State) : Prop := s.latch.fatal = false

/-- Every register lies within its width: XLEN-bit registers in XLEN bits (R6), cause codes in XLEN-1 bits (R25), and the
unnamed mstatus bits off the named fields (R19). -/
abbrev RegFile.Fits (c : Config) (rf : RegFile) : Prop :=
  fit c rf.mepc = rf.mepc ∧ fit c rf.sepc = rf.sepc ∧ fit c rf.mtval = rf.mtval ∧ fit c rf.stval = rf.stval ∧
  fit c rf.mtvec = rf.mtvec ∧ fit c rf.stvec = rf.stvec ∧ fit c rf.medeleg = rf.medeleg ∧
  fit c rf.mideleg = rf.mideleg ∧ fit c rf.mie = rf.mie ∧ fit c rf.mip = rf.mip ∧
  rf.mcause.code &&& causeCodeMask c.xlen = rf.mcause.code ∧
  rf.scause.code &&& causeCodeMask c.xlen = rf.scause.code ∧
  rf.mstatus.other &&& c.xlen.mask &&& ~~~mstatusFieldMask c.xlen = rf.mstatus.other

/-! ## Writers -/

/-- A write keeps the first writer obligation of R41: it does not put `0b10` into MPP. -/
def writeLegal : Write → Bool
  | .mpp v => decide (v ≠ 0b10#2)
  | .mstatus v => decide (v.extractLsb' 11 2 ≠ 0b10#2)
  | _ => true

/-- An input in which every write of another agent is legal. -/
def inputLegal : Input → Bool
  | .cycle _ => true
  | .hartStep (.word _ ctx) => ctx.writes.all writeLegal
  | .hartStep (.raises _ _ _ _) => true
  | .hartStep (.quiet _) => true
  | .insn _ ctx => ctx.writes.all writeLegal
  | .writer w => writeLegal w

/-- The invariant: legal parameters, registers within their widths, MPP a privilege (R20), no fatal code without a Fatal
outcome (R137), a return address of XLEN bits, and writers that keep R41 in everything still to come. -/
abbrev State.Inv (s : State) : Prop :=
  s.cfg.Legal ∧ RegFile.Fits s.cfg s.rf ∧ s.rf.mstatus.mpp ≠ 0b10#2 ∧
  (s.latch.fatal = false → s.latch.code = 0#4) ∧ fit s.cfg s.out.nextPc = s.out.nextPc ∧
  s.inputs.all inputLegal = true

/-! ## Callers that keep their duties -/

/-- A legal write that also leaves MODE of a trap-vector register at 0 or 1 (R150). -/
def writeChecked : Write → Bool
  | .reg .mtvec v => decide (tvecMode v = 0#2 ∨ tvecMode v = 1#2)
  | .reg .stvec v => decide (tvecMode v = 0#2 ∨ tvecMode v = 1#2)
  | w => writeLegal w

/-- A command a careful caller may present at any time: a query whose privilege operand codes a privilege (R71), or IRQTAKE.
Every other command belongs to an instruction step, and what it owes depends on the state (`dutyNow`). -/
def instrChecked : Instr → Bool
  | .csrchk _ priv _ => decide (priv ≠ 0b10#2)
  | .irqsel _ => true
  | .irqres priv => decide (priv ≠ 0b10#2)
  | .excres _ priv => decide (priv ≠ 0b10#2)
  | .trapent _ _ _ _ _ _ => false
  | .mret => false
  | .sret => false
  | .exctake _ _ _ _ => false
  | .irqtake _ => true
  | .reserved9 => false
  | .reservedA => false
  | .reservedB => false
  | .reservedC => false
  | .reservedD => false
  | .reservedE => false
  | .reservedF => false
  | .rvMret _ => false
  | .rvSret _ => false
  | .rvCsrrw _ _ _ _ => false
  | .rvCsrrs _ _ _ _ => false
  | .rvCsrrc _ _ _ _ => false
  | .rvCsrrwi _ _ _ _ => false
  | .rvCsrrsi _ _ _ _ => false
  | .rvCsrrci _ _ _ _ => false

/-- IRQTAKE would take nothing: the interrupt question is answered with none (R131, R157). -/
def noInterrupt (s : State) : Bool := decide (resolveInterrupt s.cfg s.rf s.rf.curPrivilege = none)

/-- TRAPENT carries what IRQRES, or EXCRES, answers in this very state, so its target is not stale (R157). -/
def carriesAnswer (s : State) (tgt : BitVec 2) (isIntr : Bool) (code : BitVec 8) : Bool :=
  if isIntr then
    decide ((resolveInterrupt s.cfg s.rf s.rf.curPrivilege).map (fun x => (x.1, privCode x.2)) = some (code, tgt))
  else noInterrupt s && decide (tgt = privCode (resolveException s.cfg s.rf code s.rf.curPrivilege))

/-- What the caller owes in the state in which it presents a command. Before an instruction executes, the interrupt question
has been answered with none (R157); MRET is presented at M (R154), SRET with `HAVE_S` and not at U (R153); the writes of a data
path are checked. The caller-side instructions make the checks of R153 and R154 themselves. -/
def dutyNow (s : State) : Instr → Bool
  | .csrchk _ priv _ => decide (priv ≠ 0b10#2)
  | .irqsel _ => true
  | .irqres priv => decide (priv ≠ 0b10#2)
  | .excres _ priv => decide (priv ≠ 0b10#2)
  | .trapent tgt isIntr code _ _ _ => carriesAnswer s tgt isIntr code
  | .mret => noInterrupt s && decide (s.rf.curPrivilege = .machine)
  | .sret => noInterrupt s && s.cfg.haveS && decide (s.rf.curPrivilege ≠ .user)
  | .exctake _ _ _ _ => noInterrupt s
  | .irqtake _ => true
  | .reserved9 => false
  | .reservedA => false
  | .reservedB => false
  | .reservedC => false
  | .reservedD => false
  | .reservedE => false
  | .reservedF => false
  | .rvMret ctx => noInterrupt s && ctx.writes.all writeChecked
  | .rvSret ctx => noInterrupt s && ctx.writes.all writeChecked
  | .rvCsrrw _ _ _ ctx => noInterrupt s && ctx.writes.all writeChecked
  | .rvCsrrs _ _ _ ctx => noInterrupt s && ctx.writes.all writeChecked
  | .rvCsrrc _ _ _ ctx => noInterrupt s && ctx.writes.all writeChecked
  | .rvCsrrwi _ _ _ ctx => noInterrupt s && ctx.writes.all writeChecked
  | .rvCsrrsi _ _ _ ctx => noInterrupt s && ctx.writes.all writeChecked
  | .rvCsrrci _ _ _ ctx => noInterrupt s && ctx.writes.all writeChecked

/-- What the hart executes in an instruction step is one of R131's cases, and its data path keeps R41 and R150. -/
def actChecked : HartAct → Bool
  | .word w ctx => (decodeInsn w ctx).isSome && ctx.writes.all writeChecked
  | .raises _ _ _ _ => true
  | .quiet _ => true

/-- An input that agents which keep their duties may present in any state. A hart executes instructions by whole steps, each
of which begins with the interrupt question (R131, R157). -/
def inputChecked (e : Input) : Bool :=
  match decode e with
  | .ok i => instrChecked i
  | .error .resetCycle => true
  | .error .idleCycle => true
  | .error (.writerTurn w) => writeChecked w
  | .error (.stepStart a) => actChecked a
  | .error (.outsideWord _) => false

/-- The input presented first meets what is owed in this state. -/
def firstChecked (s : State) (e : Input) : Bool :=
  match decode e with
  | .ok i => dutyNow s i
  | .error _ => inputChecked e

/-- The duties are kept in everything presented: in this state by the first input, in any state by the others. The writes that
follow a granted access come first too, and are checked like all others. -/
def inputsChecked (s : State) : Bool :=
  match s.inputs with
  | [] => true
  | e :: rest => firstChecked s e && rest.all inputChecked

/-- A state from which such agents never meet a Fatal or Refused outcome. -/
abbrev State.Careful (s : State) : Prop :=
  s.Live ∧ s.rf.mstatus.mpp ≠ 0b10#2 ∧ (2#2).ule (tvecMode s.rf.mtvec) = false ∧
  (2#2).ule (tvecMode s.rf.stvec) = false ∧ inputsChecked s = true

/-- No Fatal and no Refused outcome within `n` steps (R136: a claim about a run takes "no Fatal outcome" as a premise). -/
def SafeFor (n : Nat) (s : State) : Prop := ∃ t, Host.Core.run Sys2Proof.core n s = .next t

/-! ## Levels -/

/-- The level is configured (R18, R138). -/
def levelConfigured (c : Config) : Priv → Bool
  | .user => c.haveU
  | .supervisor => c.haveS
  | .machine => true

/-- The current privilege and MPP name configured levels (R18, R114). -/
abbrev State.AtConfiguredLevel (s : State) : Prop :=
  levelConfigured s.cfg s.rf.curPrivilege = true ∧
  (privOfCode s.rf.mstatus.mpp).map (levelConfigured s.cfg) = some true

/-! ## The order of interrupt sources, as a list -/

/-- MEI, MSI, MTI, SEI, SSI, STI by code (R85, R86, R129). -/
def sourceOrder : List Nat := [11, 3, 7, 9, 1, 5]

/-- A source is pending and enabled (R124) and delegated to Supervisor or not (R27, R90). -/
def sourceWaits (s : State) (delegated : Bool) (b : Nat) : Bool :=
  s.rf.mip.getLsbD b && s.rf.mie.getLsbD b && ((s.cfg.haveS && s.rf.mideleg.getLsbD b) == delegated)

/-- The interrupt R129 ranks first among those a privilege lets through (R125). -/
def firstInterrupt (s : State) (p : Priv) : Option (Nat × Priv) :=
  let m := if p = .machine ∧ s.rf.mstatus.mie = false then none else sourceOrder.find? (sourceWaits s false)
  let v := if p = .user ∨ (p = .supervisor ∧ s.rf.mstatus.sie = true) then sourceOrder.find? (sourceWaits s true) else none
  match m, v with
  | some b, _ => some (b, .machine)
  | none, some b => some (b, .supervisor)
  | none, none => none

end Sys2Proof.Machine
end

