-- ==== Sys2Proof/Certificates/Slice0/Obligations.lean ====
section
/-! DEFINITION. The statements for the provers. Each docstring names the rules of spec/ a statement formalises. -/

open Sys2Proof Sys2Proof.Machine

/-! ## Steps, decoding, encoding -/

/-- R50, R60: a presented command, or caller-side instruction, is decoded and executed on the state in which it is no longer
waiting. The list of inputs is the model's choice (log entry 1). -/
def Obligations.StepRunsDecodedInput : Prop :=
  ∀ (s : State) (e : Input) (rest : List Input), s.inputs = e :: rest →
    (∀ i, decode e = .ok i → step s = exec i { s with inputs := rest }) ∧
    (∀ p, e = .cycle p → p.rst = false → p.cmdValid = true → step s = exec (decodePorts p) { s with inputs := rest }) ∧
    (∀ w ctx i, e = .insn w ctx → decodeInsn w ctx = some i → step s = exec i { s with inputs := rest })

/-- R60: "In a cycle where `cmd_valid = 0` the block does nothing: no state changes and every result port is 0."
The list of inputs (log entry 1), and that the fatal ports are 0 too (log entry 10), are the model's choice. -/
def Obligations.CycleWithoutCommandDoesNothing : Prop :=
  ∀ s : State,
    (s.inputs = [] → step s = .next { s with out := {} }) ∧
    (∀ p rest, s.inputs = .cycle p :: rest → p.rst = false → p.cmdValid = false →
      step s = .next { s with inputs := rest, out := {} })

/-- Words written out from R61 and R74 decode to the instructions they stand for. What a table word leaves out is log entry 9. -/
def Obligations.TableWordsDecode : Prop :=
  decodeTableWord 8 0b0101 = some .mret ∧
  decodeTableWord 8 0b0000 = some (.csrchk 0#12 0#2 false) ∧
  decodeTableWord 8 0b1101 = some .reservedD ∧
  decodeTableWord 32 0b00110000001000000000000001110011 = some (.rvMret {}) ∧
  decodeTableWord 32 0b00010000001000000000000001110011 = some (.rvSret {}) ∧
  decodeTableWord 32 0b00110000010100101001001111110011 = some (.rvCsrrw 0x305#12 5#5 7#5 {}) ∧
  decodeTableWord 32 0b00010100000101010110100011110011 = some (.rvCsrrsi 0x141#12 10#5 17#5 {})

/-- Every instruction, with every operand at every value, survives encoding and decoding (R61, R64, R67, R74). -/
def Obligations.DecodeAfterEncode : Prop :=
  ∀ i : Instr, decode (encode i) = .ok i

/-- R72: the codes 0x9 to 0xF, and no others, select no operation; R61: 0x0 to 0x8 select the nine. -/
def Obligations.ReservedCodesAreNineToFifteen : Prop :=
  ∀ (p : Ports) (s : State), s.Live →
    ((∃ r, exec (decodePorts p) s = .refused (.reservedCommand r)) ↔ 9 ≤ p.cmd.toNat) ∧
    (9 ≤ p.cmd.toNat → exec (decodePorts p) s = .refused (.reservedCommand p.cmd))

/-! ## Reset -/

/-- R42: the values the spec gives for reset. -/
def Obligations.ResetStateHasGivenValues : Prop :=
  State.reset.rf.curPrivilege = .machine ∧ State.reset.rf.mstatus.mie = false ∧ State.reset.rf.mstatus.sie = false ∧
  State.reset.rf.mstatus.mprv = false ∧ State.reset.rf.mstatus.tvm = false ∧
  State.reset.rf.medeleg = 0#64 ∧ State.reset.rf.mideleg = 0#64 ∧ State.reset.rf.mie = 0#64 ∧
  State.reset.rf.mip = 0#64 ∧ State.reset.rf.mcounteren = 0#32 ∧ State.reset.rf.scounteren = 0#32 ∧
  State.reset.rf.stce = false ∧ State.reset.latch = { fatal := false, code := 0#4 } ∧
  State.reset.out.cancelReservation = false

/-- R147: in a cycle with `rst` = 1 the command is ignored and nothing is driven; the fields R42 gives a value take it, and
the others take a legal one, here a free value (log entry 4). -/
def Obligations.ResetCycleRecreatesRegisterFile : Prop :=
  ∀ (s : State) (p : Ports) (rest : List Input), s.inputs = .cycle p :: rest → p.rst = true →
    ∃ t, step s = .next t ∧ t.cfg = s.cfg ∧ t.inputs = rest ∧ t.out = {} ∧
      t.latch = { fatal := false, code := 0#4 } ∧
      t.rf.curPrivilege = .machine ∧ t.rf.mstatus.mie = false ∧ t.rf.mstatus.sie = false ∧
      t.rf.mstatus.mprv = false ∧ t.rf.mstatus.tvm = false ∧ t.rf.medeleg = 0#64 ∧ t.rf.mideleg = 0#64 ∧
      t.rf.mie = 0#64 ∧ t.rf.mip = 0#64 ∧ t.rf.mcounteren = 0#32 ∧ t.rf.scounteren = 0#32 ∧ t.rf.stce = false ∧
      t.rf.mstatus.mpp ≠ 0b10#2 ∧ t.rf.mtvec.getLsbD 1 = false ∧ t.rf.stvec.getLsbD 1 = false ∧
      RegFile.Fits t.cfg t.rf

/-- R149: after a reset cycle no interrupt is selected or taken at any privilege, and every exception resolves to Machine. -/
def Obligations.NothingIsTakenOrDelegatedAfterReset : Prop :=
  ∀ (s t : State) (p : Ports) (rest : List Input), s.inputs = .cycle p :: rest → p.rst = true → step s = .next t →
    (∀ pc, exec (.irqtake pc) t = .next { t with out := {} }) ∧
    (∀ q : Priv, exec (.irqres (privCode q)) t = .next { t with out := {} }) ∧
    (∀ code (q : Priv), exec (.excres code (privCode q)) t = .next { t with out := { resPriv := 0b11#2 } })

/-! ## CSRCHK -/

/-- R75 to R81 for any parameters: code 0x0 selects CSRCHK; it answers the conjunction of the six checks and changes nothing
else; with `priv_arg` = `0b10` it is Refused. -/
def Obligations.CsrchkAnswersSixChecks : Prop :=
  ∀ (s : State) (csr : BitVec 12) (w : Bool), s.Live →
    (∀ q : Ports, q.cmd = 0x0#4 → decodePorts q = .csrchk q.csrAddr q.privArg q.isWrite) ∧
    exec (.csrchk csr 0b10#2 w) s = .refused .privilegeOperand ∧
    ∀ p : Priv, ∃ a : Bool, exec (.csrchk csr (privCode p) w) s = .next { s with out := { allowed := a } } ∧
      (a = true ↔
        (let cls := accClass s.cfg.accDecode (csr.extractLsb' 10 2)
         cls ≠ .noAccess ∧ ¬(w = true ∧ cls = .readOnly)) ∧
        (csr.extractLsb' 8 2).toNat ≤ (privCode p).toNat ∧
        ¬(csr = s.cfg.satpAddr ∧ p = .supervisor ∧ s.rf.mstatus.tvm = true) ∧
        ((s.cfg.ctrLo.toNat ≤ csr.toNat ∧ csr.toNat ≤ s.cfg.ctrHi.toNat) ∨
            (s.cfg.ctrHiGated = true ∧ 0xC80 ≤ csr.toNat ∧ csr.toNat ≤ 0xC9F) →
          p = .machine ∨ s.rf.mcounteren.getLsbD (csr.toNat % 32) = true ∧
            (p = .supervisor ∨ s.cfg.haveS = false ∨ s.rf.scounteren.getLsbD (csr.toNat % 32) = true)) ∧
        (csr = s.cfg.stimecmpA ∨ csr = s.cfg.stimecmpB →
          p = .machine ∨ p = .supervisor ∧ s.rf.mcounteren.getLsbD 1 = true ∧ s.rf.stce = true) ∧
        (csr = s.cfg.seedAddr → w = true ∧ p = .machine))

/-- R78, with the decided parameters. -/
def Obligations.SatpIsClosedToSupervisorUnderTvm : Prop :=
  ∀ (s : State) (w : Bool), s.Live → s.cfg.Decided →
    exec (.csrchk 0x180#12 0b01#2 w) s = .next { s with out := { allowed := !s.rf.mstatus.tvm } } ∧
    exec (.csrchk 0x180#12 0b11#2 w) s = .next { s with out := { allowed := true } } ∧
    exec (.csrchk 0x180#12 0b00#2 w) s = .next { s with out := { allowed := false } }

/-- R79, with the decided parameters: reads of the counter CSRs 0xC00 + i. -/
def Obligations.CounterReadsFollowEnableMasks : Prop :=
  ∀ (s : State) (i : Nat), s.Live → s.cfg.Decided → i < 32 →
    exec (.csrchk (BitVec.ofNat 12 (0xC00 + i)) 0b11#2 false) s = .next { s with out := { allowed := true } } ∧
    exec (.csrchk (BitVec.ofNat 12 (0xC00 + i)) 0b01#2 false) s =
      .next { s with out := { allowed := s.rf.mcounteren.getLsbD i } } ∧
    exec (.csrchk (BitVec.ofNat 12 (0xC00 + i)) 0b00#2 false) s =
      .next { s with out := { allowed := s.rf.mcounteren.getLsbD i && (!s.cfg.haveS || s.rf.scounteren.getLsbD i) } } ∧
    (∀ p : Priv, exec (.csrchk (BitVec.ofNat 12 (0xC00 + i)) (privCode p) true) s =
      .next { s with out := { allowed := false } }) ∧
    (∀ p : Priv, exec (.csrchk (BitVec.ofNat 12 (0xC80 + i)) (privCode p) false) s =
      .next { s with out := { allowed := true } })

/-- R80, with the decided parameters. -/
def Obligations.TimeCompareNeedsBothGates : Prop :=
  ∀ (s : State) (w : Bool) (csr : BitVec 12), s.Live → s.cfg.Decided → csr = 0x14D#12 ∨ csr = 0x15D#12 →
    exec (.csrchk csr 0b11#2 w) s = .next { s with out := { allowed := true } } ∧
    exec (.csrchk csr 0b01#2 w) s = .next { s with out := { allowed := s.rf.mcounteren.getLsbD 1 && s.rf.stce } } ∧
    exec (.csrchk csr 0b00#2 w) s = .next { s with out := { allowed := false } }

/-- R81, with the decided parameters. -/
def Obligations.EntropySourceTakesMachineWritesOnly : Prop :=
  ∀ (s : State) (w : Bool) (p : Priv), s.Live → s.cfg.Decided →
    exec (.csrchk 0x015#12 (privCode p) w) s = .next { s with out := { allowed := w && decide (p = .machine) } }

/-- R84: the answer is a function of the operands, of TVM, `mcounteren`, `scounteren`, STCE and the parameters, for any two
states, whatever else they hold; and nothing but the answer changes. -/
def Obligations.CsrchkSeesOnlyItsInputs : Prop :=
  ∀ (s t : State) (csr : BitVec 12) (b : BitVec 2) (w : Bool), s.Live → t.Live → s.cfg = t.cfg →
    s.rf.mstatus.tvm = t.rf.mstatus.tvm → s.rf.mcounteren = t.rf.mcounteren → s.rf.scounteren = t.rf.scounteren →
    s.rf.stce = t.rf.stce →
    resultPorts (exec (.csrchk csr b w) s) = resultPorts (exec (.csrchk csr b w) t) ∧
    (∀ u, exec (.csrchk csr b w) s = .next u →
      { u with out := s.out } = s ∧ u.out.cancelReservation = false ∧ u.out.extHookValid = false)

/-! ## IRQSEL, IRQRES, EXCRES -/

/-- R85 to R88: code 0x1 selects IRQSEL, which gives the first source of the order MEI, MSI, MTI, SEI, SSI, STI whose bit is
set, and reads and writes no register. -/
def Obligations.IrqselGivesFirstInOrder : Prop :=
  ∀ (s : State) (m : Word), s.Live → s.cfg.irqBits = 0xAAA#64 →
    let r : Results := match sourceOrder.find? (fun b => m.getLsbD b) with
      | some b => { resValid := true, resCode := BitVec.ofNat 8 b }
      | none => {}
    (∀ q : Ports, q.cmd = 0x1#4 → decodePorts q = .irqsel q.irqMask) ∧
    exec (.irqsel m) s = .next { s with out := r }

/-- R89 to R92, R129: code 0x2 selects IRQRES, which gives the first interrupt a privilege lets through; with `0b10` it is
Refused. -/
def Obligations.IrqresGivesFirstVisible : Prop :=
  ∀ s : State, s.Live → s.cfg.irqBits = 0xAAA#64 →
    (∀ q : Ports, q.cmd = 0x2#4 → decodePorts q = .irqres q.privArg) ∧
    exec (.irqres 0b10#2) s = .refused .privilegeOperand ∧
    ∀ p : Priv,
      let r : Results := match firstInterrupt s p with
        | some (b, t) => { resValid := true, resCode := BitVec.ofNat 8 b, resPriv := privCode t }
        | none => {}
      exec (.irqres (privCode p)) s = .next { s with out := r }

/-- R93, R94: code 0x3 selects EXCRES, which gives Supervisor iff Supervisor is configured, the code's delegation bit is set and
the privilege is below Machine; otherwise Machine. With `0b10` it is Refused. -/
def Obligations.ExcresGivesDelegatedTarget : Prop :=
  ∀ (s : State) (code : BitVec 8), s.Live →
    (∀ q : Ports, q.cmd = 0x3#4 → decodePorts q = .excres q.code q.privArg) ∧
    exec (.excres code 0b10#2) s = .refused .privilegeOperand ∧
    ∀ p : Priv, exec (.excres code (privCode p)) s = .next { s with out := { resPriv :=
      if s.cfg.haveS = true ∧ code.toNat < s.cfg.xlen.bits ∧ s.rf.medeleg.getLsbD code.toNat = true ∧ p ≠ .machine
      then 0b01#2 else 0b11#2 } }

/-- R96 (1), (3), (4), (5): what IRQRES can answer. -/
def Obligations.IrqresTargetsAreSound : Prop :=
  ∀ (s t : State) (p : Priv), exec (.irqres (privCode p)) s = .next t → t.out.resValid = true →
    (t.out.resPriv = 0b11#2 ∨ t.out.resPriv = 0b01#2) ∧
    (s.cfg.haveS = false → t.out.resPriv = 0b11#2) ∧
    (privCode p).toNat ≤ t.out.resPriv.toNat ∧
    (t.out.resPriv = 0b01#2 → p ≠ .machine)

/-- R84, R87, R95: the pure operations write nothing but their own result ports, call no hook and cancel nothing, and neither
does the refusal they can end in. -/
def Obligations.PureOperationsWriteNothing : Prop :=
  ∀ (s t : State) (i : Instr),
    ((∃ csr b w, i = .csrchk csr b w) ∨ (∃ m, i = .irqsel m) ∨ (∃ b, i = .irqres b) ∨ (∃ code b, i = .excres code b)) →
    (∀ f, exec i s ≠ .fault f) ∧
    (exec i s = .next t →
      { t with out := s.out } = s ∧ t.out.cancelReservation = false ∧ t.out.extHookValid = false ∧
      t.out.nextPcValid = false)

/-! ## Trap entry -/

/-- R101, R103 to R106: the Machine-target commit, whole. The model's choice: operands cut to their ports (log entries 12, 14),
and 0 on the hook's value port without a payload (log entry 21). -/
def Obligations.TrapentCommitsToMachine : Prop :=
  ∀ (s : State) (isIntr : Bool) (code : BitVec 8) (pc : Word) (info : Option Word) (ext : Option Nat), s.Live →
    s.rf.mtvec.getLsbD 1 = false →
    exec (.trapent 0b11#2 isIntr code pc info ext) s = .next { s with
      rf := { s.rf with
        mcause := { intr := isIntr, code := BitVec.ofNat 63 code.toNat }
        mstatus := { s.rf.mstatus with mpie := s.rf.mstatus.mie, mie := false, mpp := privCode s.rf.curPrivilege }
        mtval := (info.map (fit s.cfg)).getD 0#64
        mepc := fit s.cfg pc
        curPrivilege := .machine }
      out := {
        nextPcValid := true
        nextPc :=
          if s.rf.mtvec.getLsbD 0 = true ∧ isIntr = true
          then fit s.cfg ((fit s.cfg s.rf.mtvec &&& ~~~3#64) + BitVec.ofNat 64 (4 * code.toNat))
          else fit s.cfg s.rf.mtvec &&& ~~~3#64
        cancelReservation := true
        extHookValid := true
        extHookPriv := 0b11#2
        extHookPc := fit s.cfg pc
        extHookPayloadValid := ext.isSome
        extHookPayload := (ext.map (· % 2 ^ s.cfg.extW)).getD 0 } }

/-- R102 to R106: the Supervisor-target commit, whole. The model's choice: operands cut to their ports (log entries 12, 14),
and 0 on the hook's value port without a payload (log entry 21). -/
def Obligations.TrapentCommitsToSupervisor : Prop :=
  ∀ (s : State) (isIntr : Bool) (code : BitVec 8) (pc : Word) (info : Option Word) (ext : Option Nat), s.Live →
    s.cfg.haveS = true → s.rf.curPrivilege ≠ .machine → s.rf.stvec.getLsbD 1 = false →
    exec (.trapent 0b01#2 isIntr code pc info ext) s = .next { s with
      rf := { s.rf with
        scause := { intr := isIntr, code := BitVec.ofNat 63 code.toNat }
        mstatus := { s.rf.mstatus with
          spie := s.rf.mstatus.sie, sie := false, spp := decide (s.rf.curPrivilege ≠ .user) }
        stval := (info.map (fit s.cfg)).getD 0#64
        sepc := fit s.cfg pc
        curPrivilege := .supervisor }
      out := {
        nextPcValid := true
        nextPc :=
          if s.rf.stvec.getLsbD 0 = true ∧ isIntr = true
          then fit s.cfg ((fit s.cfg s.rf.stvec &&& ~~~3#64) + BitVec.ofNat 64 (4 * code.toNat))
          else fit s.cfg s.rf.stvec &&& ~~~3#64
        cancelReservation := true
        extHookValid := true
        extHookPriv := 0b01#2
        extHookPc := fit s.cfg pc
        extHookPayloadValid := ext.isSome
        extHookPayload := (ext.map (· % 2 ^ s.cfg.extW)).getD 0 } }

/-- R98 to R100: which Fatal outcome TRAPENT ends in, the first condition that holds deciding. It has no next state, calls no
hook, cancels nothing and drives no next program counter. -/
def Obligations.TrapentFatalChecksInOrder : Prop :=
  ∀ (s : State) (isIntr : Bool) (code : BitVec 8) (pc : Word) (info : Option Word) (ext : Option Nat), s.Live →
    exec (.trapent 0b10#2 isIntr code pc info ext) s = .fault .privInvalid ∧
    exec (.trapent 0b00#2 isIntr code pc info ext) s = .fault .targetUser ∧
    (s.cfg.haveS = false → exec (.trapent 0b01#2 isIntr code pc info ext) s = .fault .sTargetNoS) ∧
    (s.cfg.haveS = true → s.rf.curPrivilege = .machine →
      exec (.trapent 0b01#2 isIntr code pc info ext) s = .fault .sppFromMachine) ∧
    (s.cfg.haveS = true → s.rf.curPrivilege ≠ .machine → s.rf.stvec.getLsbD 1 = true →
      exec (.trapent 0b01#2 isIntr code pc info ext) s = .fault .tvecMode) ∧
    (s.rf.mtvec.getLsbD 1 = true → exec (.trapent 0b11#2 isIntr code pc info ext) s = .fault .tvecMode) ∧
    (∀ tgt f, exec (.trapent tgt isIntr code pc info ext) s = .fault f →
      (resultPorts (exec (.trapent tgt isIntr code pc info ext) s)).extHookValid = false ∧
      (resultPorts (exec (.trapent tgt isIntr code pc info ext) s)).cancelReservation = false ∧
      (resultPorts (exec (.trapent tgt isIntr code pc info ext) s)).nextPcValid = false)

/-- R111: a trap entry leaves the privilege at its target, never below where it was. -/
def Obligations.EntryNeverLowersPrivilege : Prop :=
  ∀ (s t : State) (i : Instr),
    ((∃ tgt isIntr code pc info ext, i = .trapent tgt isIntr code pc info ext) ∨
      (∃ code pc info ext, i = .exctake code pc info ext) ∨ (∃ pc, i = .irqtake pc)) →
    exec i s = .next t →
    (∀ tgt isIntr code pc info ext, i = .trapent tgt isIntr code pc info ext → privCode t.rf.curPrivilege = tgt) ∧
    (t.out.extHookValid = true → t.out.extHookPriv = privCode t.rf.curPrivilege) ∧
    (privCode s.rf.curPrivilege).toNat ≤ (privCode t.rf.curPrivilege).toNat

/-- R108: code 0x7 selects EXCTAKE, the resolver on the current privilege followed by TRAPENT, with `res_priv` driven as well;
its only Fatal outcome is `TVEC_MODE`. -/
def Obligations.ExctakeChainsResolverAndEntry : Prop :=
  ∀ (s : State) (code : BitVec 8) (pc : Word) (info : Option Word) (ext : Option Nat), s.Live →
    (∀ q : Ports, q.cmd = 0x7#4 → decodePorts q =
      .exctake q.code q.pc (if q.infoValid then some q.info else none)
        (if q.extValid then some q.extPayload else none)) ∧
    (∀ f, exec (.exctake code pc info ext) s = .fault f →
      f = .tvecMode ∧ (resultPorts (exec (.exctake code pc info ext) s)).resPriv = 0#2) ∧
    ∃ t : BitVec 2, resultPorts (exec (.excres code (privCode s.rf.curPrivilege)) s) = { resPriv := t } ∧
      exec (.exctake code pc info ext) s =
        match exec (.trapent t false code pc info ext) s with
        | .next u => .next { u with out := { u.out with resPriv := t } }
        | .fault f => .fault f
        | .refused r => .refused r

/-- R108: EXCTAKE completes unless the target's own trap-vector register has a reserved MODE, and then ends in `TVEC_MODE`;
what it leaves in the target's registers. -/
def Obligations.ExctakeEntersAtResolvedTarget : Prop :=
  ∀ (s : State) (code : BitVec 8) (pc : Word) (info : Option Word) (ext : Option Nat), s.Live →
    let toS := s.cfg.haveS = true ∧ code.toNat < s.cfg.xlen.bits ∧ s.rf.medeleg.getLsbD code.toNat = true ∧
      s.rf.curPrivilege ≠ .machine
    (toS → s.rf.stvec.getLsbD 1 = true → exec (.exctake code pc info ext) s = .fault .tvecMode) ∧
    (¬toS → s.rf.mtvec.getLsbD 1 = true → exec (.exctake code pc info ext) s = .fault .tvecMode) ∧
    (toS → s.rf.stvec.getLsbD 1 = false → ∃ t, exec (.exctake code pc info ext) s = .next t ∧
      t.rf.curPrivilege = .supervisor ∧ t.rf.scause = { intr := false, code := BitVec.ofNat 63 code.toNat } ∧
      t.rf.sepc = fit s.cfg pc ∧ t.rf.stval = (info.map (fit s.cfg)).getD 0#64 ∧
      t.rf.mcause = s.rf.mcause ∧ t.rf.mepc = s.rf.mepc ∧ t.rf.mtval = s.rf.mtval ∧
      t.out.resPriv = 0b01#2 ∧ t.out.nextPcValid = true ∧ t.out.nextPc = fit s.cfg s.rf.stvec &&& ~~~3#64) ∧
    (¬toS → s.rf.mtvec.getLsbD 1 = false → ∃ t, exec (.exctake code pc info ext) s = .next t ∧
      t.rf.curPrivilege = .machine ∧ t.rf.mcause = { intr := false, code := BitVec.ofNat 63 code.toNat } ∧
      t.rf.mepc = fit s.cfg pc ∧ t.rf.mtval = (info.map (fit s.cfg)).getD 0#64 ∧
      t.rf.scause = s.rf.scause ∧ t.rf.sepc = s.rf.sepc ∧ t.rf.stval = s.rf.stval ∧
      t.out.resPriv = 0b11#2 ∧ t.out.nextPcValid = true ∧ t.out.nextPc = fit s.cfg s.rf.mtvec &&& ~~~3#64)

/-- R109: code 0x8 selects IRQTAKE, whose only Fatal outcome is `TVEC_MODE`. IRQTAKE with nothing to take changes nothing and
drives nothing; otherwise it is TRAPENT for the interrupt IRQRES selects, without info and payload. -/
def Obligations.IrqtakeTakesTheSelectedInterrupt : Prop :=
  ∀ (s : State) (pc : Word), s.Live → s.cfg.irqBits = 0xAAA#64 →
    (∀ q : Ports, q.cmd = 0x8#4 → decodePorts q = .irqtake q.pc) ∧
    (∀ f, exec (.irqtake pc) s = .fault f → f = .tvecMode) ∧
    (∀ t, exec (.irqtake pc) s = .next t → t.rf.mip = s.rf.mip) ∧
    (firstInterrupt s s.rf.curPrivilege = none → exec (.irqtake pc) s = .next { s with out := {} }) ∧
    (∀ b t, firstInterrupt s s.rf.curPrivilege = some (b, t) →
      exec (.irqtake pc) s =
        match exec (.trapent (privCode t) true (BitVec.ofNat 8 b) pc none none) s with
        | .next u => .next { u with
            out := { u.out with resValid := true, resCode := BitVec.ofNat 8 b, resPriv := privCode t } }
        | .fault f => .fault f
        | .refused r => .refused r)

/-- R109: IRQTAKE completes whenever no reserved MODE stands in a trap-vector register; a taken interrupt's cause, address and
zero trap value, and its pending bit left set (R126). -/
def Obligations.IrqtakeCompletes : Prop :=
  ∀ (s : State) (pc : Word), s.Live → s.cfg.irqBits = 0xAAA#64 → s.rf.mtvec.getLsbD 1 = false →
    s.rf.stvec.getLsbD 1 = false →
    ∃ t, exec (.irqtake pc) s = .next t ∧ t.rf.mip = s.rf.mip ∧ t.rf.mie = s.rf.mie ∧
      (∀ b, firstInterrupt s s.rf.curPrivilege = some (b, .machine) →
        t.rf.mcause = { intr := true, code := BitVec.ofNat 63 b } ∧ t.rf.mepc = fit s.cfg pc ∧ t.rf.mtval = 0#64 ∧
        t.rf.curPrivilege = .machine ∧ t.rf.mstatus.mie = false ∧ t.rf.mstatus.mpie = s.rf.mstatus.mie) ∧
      (∀ b, firstInterrupt s s.rf.curPrivilege = some (b, .supervisor) →
        t.rf.scause = { intr := true, code := BitVec.ofNat 63 b } ∧ t.rf.sepc = fit s.cfg pc ∧ t.rf.stval = 0#64 ∧
        t.rf.curPrivilege = .supervisor ∧ t.rf.mstatus.sie = false ∧ t.rf.mstatus.spie = s.rf.mstatus.sie)

/-- R108, R109, R96 (5): the composite operations never stop but for a reserved MODE or a latch already set. -/
def Obligations.CompositesStopOnlyOnReservedMode : Prop :=
  ∀ (s : State) (i : Instr),
    ((∃ code pc info ext, i = .exctake code pc info ext) ∨ (∃ pc, i = .irqtake pc)) → s.Live →
    (∀ f, exec i s = .fault f → f = .tvecMode) ∧ (∀ r, exec i s ≠ .refused r)

/-- R110: a second Machine-target trap overwrites what the first one saved. -/
def Obligations.NestedMachineTrapOverwrites : Prop :=
  ∀ (s t u : State) (tgt₁ tgt₂ : BitVec 2) (k₁ k₂ : Bool) (c₁ c₂ : BitVec 8) (pc₁ pc₂ : Word) (f₁ f₂ : Option Word)
    (e₁ e₂ : Option Nat), tgt₁ = 0b11#2 → tgt₂ = 0b11#2 →
    exec (.trapent tgt₁ k₁ c₁ pc₁ f₁ e₁) s = .next t → exec (.trapent tgt₂ k₂ c₂ pc₂ f₂ e₂) t = .next u →
    u.rf.mstatus.mpie = false ∧ u.rf.mstatus.mpp = 0b11#2 ∧ u.rf.mepc = fit s.cfg pc₂ ∧
    u.rf.mcause = { intr := k₂, code := BitVec.ofNat 63 c₂.toNat } ∧ u.rf.mtval = (f₂.map (fit s.cfg)).getD 0#64

/-! ## Trap return -/

/-- R113, R117: MRET, whole: code 0x5, its result, and `PRIV_INVALID` when MPP holds `0b10`. -/
def Obligations.MretReturns : Prop :=
  ∀ s : State, s.Live →
    (∀ q : Ports, q.cmd = 0x5#4 → decodePorts q = .mret) ∧
    (s.rf.mstatus.mpp = 0b10#2 → exec .mret s = .fault .privInvalid) ∧
    (∀ p : Priv, s.rf.mstatus.mpp = privCode p → exec .mret s = .next { s with
      rf := { s.rf with
        curPrivilege := p
        mstatus := { s.rf.mstatus with
          mie := s.rf.mstatus.mpie, mpie := true,
          mpp := if s.cfg.haveU = true then 0b00#2 else 0b11#2,
          mprv := s.rf.mstatus.mprv && decide (p = .machine) } }
      out := {
        nextPcValid := true
        nextPc := fit s.cfg (s.rf.mepc &&& s.cfg.pcAlignMask)
        cancelReservation := true } })

/-- R115, R117: SRET, whole: code 0x6, its result, and `SRET_NO_S` without Supervisor. -/
def Obligations.SretReturns : Prop :=
  ∀ s : State, s.Live →
    (∀ q : Ports, q.cmd = 0x6#4 → decodePorts q = .sret) ∧
    (s.cfg.haveS = false → exec .sret s = .fault .sretNoS) ∧
    (s.cfg.haveS = true → exec .sret s = .next { s with
      rf := { s.rf with
        curPrivilege := if s.rf.mstatus.spp = true then .supervisor else .user
        mstatus := { s.rf.mstatus with sie := s.rf.mstatus.spie, spie := true, spp := false, mprv := false } }
      out := {
        nextPcValid := true
        nextPc := fit s.cfg (s.rf.sepc &&& s.cfg.pcAlignMask)
        cancelReservation := true } })

/-- R117, R119 (4): under legal parameters the return address differs from the epc at most in bits 1 and 0. -/
def Obligations.ReturnAddressKeepsUpperBits : Prop :=
  ∀ s t : State, s.cfg.Legal →
    (exec .mret s = .next t → ∀ b, 2 ≤ b → t.out.nextPc.getLsbD b = (fit s.cfg s.rf.mepc).getLsbD b) ∧
    (exec .sret s = .next t → ∀ b, 2 ≤ b → t.out.nextPc.getLsbD b = (fit s.cfg s.rf.sepc).getLsbD b)

/-- R119 (1), (4), R133: a Machine-target entry and then MRET restore privilege and MIE, lead back to an aligned address, and
leave every Supervisor field as it was. -/
def Obligations.MachineTrapRoundTrip : Prop :=
  ∀ (s t : State) (isIntr : Bool) (code : BitVec 8) (pc : Word) (info : Option Word) (ext : Option Nat),
    exec (.trapent 0b11#2 isIntr code pc info ext) s = .next t →
    ∃ u, exec .mret t = .next u ∧ u.rf.curPrivilege = s.rf.curPrivilege ∧ u.rf.mstatus.mie = s.rf.mstatus.mie ∧
      u.rf.mstatus.mpie = true ∧ u.rf.mstatus.mpp = (if s.cfg.haveU = true then 0b00#2 else 0b11#2) ∧
      u.rf.mcause = t.rf.mcause ∧ u.rf.mepc = t.rf.mepc ∧ u.rf.mtval = t.rf.mtval ∧
      (s.rf.curPrivilege ≠ .machine → u.rf.mstatus.mprv = false) ∧
      (s.cfg.Legal → fit s.cfg pc = pc → pc.getLsbD 0 = false → pc.getLsbD 1 = false → u.out.nextPc = pc) ∧
      u.rf.mstatus.sie = s.rf.mstatus.sie ∧ u.rf.mstatus.spie = s.rf.mstatus.spie ∧
      u.rf.mstatus.spp = s.rf.mstatus.spp ∧ u.rf.sepc = s.rf.sepc ∧ u.rf.scause = s.rf.scause ∧
      u.rf.stval = s.rf.stval

/-- R119 (2): the same for a Supervisor-target entry and SRET. -/
def Obligations.SupervisorTrapRoundTrip : Prop :=
  ∀ (s t : State) (isIntr : Bool) (code : BitVec 8) (pc : Word) (info : Option Word) (ext : Option Nat),
    exec (.trapent 0b01#2 isIntr code pc info ext) s = .next t →
    ∃ u, exec .sret t = .next u ∧ u.rf.curPrivilege = s.rf.curPrivilege ∧ u.rf.mstatus.sie = s.rf.mstatus.sie ∧
      u.rf.mstatus.spie = true ∧ u.rf.mstatus.spp = false ∧ u.rf.mstatus.mprv = false ∧
      u.rf.scause = t.rf.scause ∧ u.rf.sepc = t.rf.sepc ∧ u.rf.stval = t.rf.stval ∧
      (s.cfg.Legal → fit s.cfg pc = pc → pc.getLsbD 0 = false → pc.getLsbD 1 = false → u.out.nextPc = pc)

/-- R21: after any trap return that results in a non-Machine privilege MPRV is 0, and no operation of the block sets MPRV. For
the caller's CSR rows this holds because the write they are granted is a later input (log entry 6). -/
def Obligations.MprvClearAfterReturnBelowMachine : Prop :=
  ∀ (s t : State) (i : Instr), exec i s = .next t →
    (s.rf.mstatus.mprv = false → t.rf.mstatus.mprv = false) ∧
    (i = .mret ∨ i = .sret → t.rf.curPrivilege ≠ .machine → t.rf.mstatus.mprv = false)

/-! ## Rules about every operation -/

/-- R37, R38, R126: no instruction changes the parameters, the fatal latch, or a register R37 lists for no operation. For the
caller's CSR rows this holds because the write they are granted is a later input (log entry 6); `fresh` is the model's own
(log entry 4). -/
def Obligations.NoInstructionWritesGatesOrMasks : Prop :=
  ∀ (s t : State) (i : Instr), exec i s = .next t →
    t.cfg = s.cfg ∧ t.latch = s.latch ∧ t.fresh = s.fresh ∧
    t.rf.mip = s.rf.mip ∧ t.rf.mie = s.rf.mie ∧ t.rf.medeleg = s.rf.medeleg ∧ t.rf.mideleg = s.rf.mideleg ∧
    t.rf.mtvec = s.rf.mtvec ∧ t.rf.stvec = s.rf.stvec ∧ t.rf.mcounteren = s.rf.mcounteren ∧
    t.rf.scounteren = s.rf.scounteren ∧ t.rf.stce = s.rf.stce ∧ t.rf.mstatus.tvm = s.rf.mstatus.tvm ∧
    t.rf.mstatus.uxl = s.rf.mstatus.uxl ∧ t.rf.mstatus.sxl = s.rf.mstatus.sxl ∧
    t.rf.mstatus.mxl = s.rf.mstatus.mxl ∧ t.rf.mstatus.other = s.rf.mstatus.other

/-- R44, R133: what enters or leaves through one level leaves the other level's fields alone. For the caller's CSR rows this
holds because the write they are granted is a later input (log entry 6); RV.MRET and RV.SRET are the subject of
`CallerReturnsAreChecked`. -/
def Obligations.LevelsUseDisjointFields : Prop :=
  ∀ (s t : State) (i : Instr), exec i s = .next t →
    (t.rf.curPrivilege = .machine ∨ i = .mret →
      t.rf.scause = s.rf.scause ∧ t.rf.sepc = s.rf.sepc ∧ t.rf.stval = s.rf.stval ∧
      t.rf.mstatus.sie = s.rf.mstatus.sie ∧ t.rf.mstatus.spie = s.rf.mstatus.spie ∧
      t.rf.mstatus.spp = s.rf.mstatus.spp) ∧
    (i = .sret ∨ (t.out.extHookValid = true ∧ t.rf.curPrivilege = .supervisor) →
      t.rf.mcause = s.rf.mcause ∧ t.rf.mepc = s.rf.mepc ∧ t.rf.mtval = s.rf.mtval ∧
      t.rf.mstatus.mie = s.rf.mstatus.mie ∧ t.rf.mstatus.mpie = s.rf.mstatus.mpie ∧
      t.rf.mstatus.mpp = s.rf.mstatus.mpp)

/-- R55, R104, R106, R118: a committing command that succeeds cancels the reservation once, in its own cycle, and calls the
hook once iff it is a trap entry; nothing else does either. RV.MRET and RV.SRET present a return, or EXCTAKE where the caller's
check fails (log entry 6). -/
def Obligations.CancelAndHookExactlyOnCommit : Prop :=
  ∀ (s t : State) (i : Instr), exec i s = .next t →
    (t.out.cancelReservation = t.out.nextPcValid) ∧
    (∀ tgt isIntr code pc info ext, i = .trapent tgt isIntr code pc info ext →
      t.out.cancelReservation = true ∧ t.out.extHookValid = true) ∧
    (∀ code pc info ext, i = .exctake code pc info ext →
      t.out.cancelReservation = true ∧ t.out.extHookValid = true) ∧
    (∀ pc, i = .irqtake pc →
      t.out.cancelReservation = t.out.resValid ∧ t.out.extHookValid = t.out.resValid) ∧
    (i = .mret ∨ i = .sret → t.out.cancelReservation = true ∧ t.out.extHookValid = false) ∧
    (∀ ctx, i = .rvMret ctx →
      t.out.cancelReservation = true ∧ (t.out.extHookValid = false ↔ s.rf.curPrivilege = .machine)) ∧
    (∀ ctx, i = .rvSret ctx →
      t.out.cancelReservation = true ∧
      (t.out.extHookValid = false ↔ s.cfg.haveS = true ∧ s.rf.curPrivilege ≠ .user)) ∧
    ((∀ tgt isIntr code pc info ext, i ≠ .trapent tgt isIntr code pc info ext) →
      (∀ code pc info ext, i ≠ .exctake code pc info ext) → (∀ pc, i ≠ .irqtake pc) → i ≠ .mret → i ≠ .sret →
      (∀ ctx, i ≠ .rvMret ctx) → (∀ ctx, i ≠ .rvSret ctx) →
      t.out.cancelReservation = false ∧ t.out.extHookValid = false)

/-- R63, R71 to R73, R137: in the cycle of a Fatal command only `fatal` and its code are driven; in the cycle of a Refused one
`cmd_err` is, and the latch if it is set. -/
def Obligations.StoppedCommandsDriveOnlyErrors : Prop :=
  ∀ (s : State) (i : Instr),
    (∀ f, exec i s = .fault f → resultPorts (exec i s) = {
      fatal := true
      fatalCode := match f with
        | .targetUser => 1#4
        | .sTargetNoS => 2#4
        | .sppFromMachine => 3#4
        | .sretNoS => 4#4
        | .privInvalid => 5#4
        | .tvecMode => 6#4 }) ∧
    (∀ r, exec i s = .refused r →
      resultPorts (exec i s) =
        if s.latch.fatal = true then { cmdErr := true, fatal := true, fatalCode := s.latch.code } else { cmdErr := true })

/-- R73: while the fatal latch is set every command, whatever its code, is Refused with `fatal` and its code still driven; and
only a reset cycle leaves that state (R147), with the latch of R42. That the eight caller-side rows are Refused too is the
model's DESIGN CHOICE (log entry 20). -/
def Obligations.NothingRunsAfterFatal : Prop :=
  ∀ s : State, s.latch.fatal = true →
    (∀ i, exec i s = .refused (.afterFatal s.latch.code) ∧
      resultPorts (exec i s) = { cmdErr := true, fatal := true, fatalCode := s.latch.code }) ∧
    (∀ t, step s = .next t → t.latch = s.latch ∨ ∃ p rest, s.inputs = .cycle p :: rest ∧ p.rst = true) ∧
    (∀ p rest, s.inputs = .cycle p :: rest → p.rst = true →
      ∃ t, step s = .next t ∧ t.latch = { fatal := false, code := 0#4 })

/-- R72: the reserved command codes 0x9 to 0xF are Refused: no next state, `cmd_err` = 1, every other result 0. -/
def Obligations.ReservedCommandsAreRefused : Prop :=
  ∀ s : State, s.Live →
    exec .reserved9 s = .refused (.reservedCommand 0x9#4) ∧ exec .reservedA s = .refused (.reservedCommand 0xA#4) ∧
    exec .reservedB s = .refused (.reservedCommand 0xB#4) ∧ exec .reservedC s = .refused (.reservedCommand 0xC#4) ∧
    exec .reservedD s = .refused (.reservedCommand 0xD#4) ∧ exec .reservedE s = .refused (.reservedCommand 0xE#4) ∧
    exec .reservedF s = .refused (.reservedCommand 0xF#4) ∧
    (∀ p : Ports, 9 ≤ p.cmd.toNat →
      exec (decodePorts p) s = .refused (.reservedCommand p.cmd) ∧
      resultPorts (exec (decodePorts p) s) = { cmdErr := true })

/-- R139, R154 (spec/90_conflicts.md C6): under the caller's duties before MRET and SRET the privilege rises only by trap
entry, to the entry's target. -/
def Obligations.PrivilegeRisesOnlyByTrapEntry : Prop :=
  ∀ (s t : State) (i : Instr), exec i s = .next t →
    (i = .mret → s.rf.curPrivilege = .machine) → (i = .sret → s.rf.curPrivilege ≠ .user) →
    (privCode s.rf.curPrivilege).toNat < (privCode t.rf.curPrivilege).toNat →
    t.out.extHookValid = true ∧ t.out.extHookPriv = privCode t.rf.curPrivilege

/-- R96 (1), R132: without Supervisor nothing is taken to it, whatever the delegation masks hold. For the caller's CSR rows
this holds because the write they are granted is a later input (log entry 6). -/
def Obligations.NoSupervisorTrapWithoutSupervisor : Prop :=
  ∀ (s t : State) (i : Instr), s.cfg.haveS = false → exec i s = .next t →
    t.out.resPriv ≠ 0b01#2 ∧ t.out.extHookPriv ≠ 0b01#2 ∧
    t.rf.scause = s.rf.scause ∧ t.rf.sepc = s.rf.sepc ∧ t.rf.stval = s.rf.stval

/-- R126: after the interrupt is taken to Machine and MRET executed, IRQRES at the restored privilege answers what it answered
before, since no operation cleared the pending bit. -/
def Obligations.UnclearedInterruptIsSelectedAgain : Prop :=
  ∀ (s t u : State) (pc : Word), exec (.irqtake pc) s = .next t → t.out.resPriv = 0b11#2 → exec .mret t = .next u →
    u.rf.curPrivilege = s.rf.curPrivilege ∧
    resultPorts (exec (.irqres (privCode u.rf.curPrivilege)) u) =
      resultPorts (exec (.irqres (privCode s.rf.curPrivilege)) s)

/-- R18, R114: with `HAVE_S → HAVE_U`, no instruction leads from a state at configured levels to one that is not. What happens
at an unconfigured level is log entry 18. For the caller's CSR rows this holds because the write they are granted, which may be
of MPP, is a later input (log entry 6). -/
def Obligations.InstructionsKeepConfiguredLevel : Prop :=
  ∀ (s t : State) (i : Instr), s.cfg.Legal → s.AtConfiguredLevel → exec i s = .next t → t.AtConfiguredLevel

/-! ## The caller's side -/

/-- R74, R153, R154 (log entry 6): RV.MRET and RV.SRET present the block's MRET and SRET when the caller's checks pass, and
EXCTAKE for an illegal instruction when they fail; with the checks passed they complete. -/
def Obligations.CallerReturnsAreChecked : Prop :=
  ∀ (s : State) (ctx : Caller), s.Live →
    (s.rf.curPrivilege = .machine → exec (.rvMret ctx) s = exec .mret s) ∧
    (s.rf.curPrivilege = .machine → s.rf.mstatus.mpp ≠ 0b10#2 →
      ∃ t, exec (.rvMret ctx) s = .next t ∧ privCode t.rf.curPrivilege = s.rf.mstatus.mpp) ∧
    (s.rf.curPrivilege ≠ .machine →
      exec (.rvMret ctx) s = exec (.exctake s.cfg.illegalCode ctx.pc ctx.info ctx.ext) s) ∧
    (s.cfg.haveS = true → s.rf.curPrivilege ≠ .user →
      exec (.rvSret ctx) s = exec .sret s ∧
      ∃ t, exec (.rvSret ctx) s = .next t ∧ t.rf.mstatus.sie = s.rf.mstatus.spie) ∧
    (s.cfg.haveS = false ∨ s.rf.curPrivilege = .user →
      exec (.rvSret ctx) s = exec (.exctake s.cfg.illegalCode ctx.pc ctx.info ctx.ext) s)

/-- R74, R83, R131, R155 (log entry 6): the six CSR instructions present CSRCHK with the current privilege and their own
direction, complete, and leave the Register File alone. What is presented next is EXCTAKE for an illegal instruction if the
CSR is undefined or the access denied, and the data path's writes if a write is granted. -/
def Obligations.CallerCsrInstructionsPresentCheck : Prop :=
  ∀ (s : State) (csr : BitVec 12) (r rd : BitVec 5) (ctx : Caller) (i : Instr) (w : Bool), s.Live →
    (i = .rvCsrrw csr r rd ctx ∧ w = true ∨ i = .rvCsrrwi csr r rd ctx ∧ w = true ∨
      i = .rvCsrrs csr r rd ctx ∧ w = decide (r.toNat ≠ 0) ∨ i = .rvCsrrsi csr r rd ctx ∧ w = decide (r.toNat ≠ 0) ∨
      i = .rvCsrrc csr r rd ctx ∧ w = decide (r.toNat ≠ 0) ∨ i = .rvCsrrci csr r rd ctx ∧ w = decide (r.toNat ≠ 0)) →
    ∃ next : List Input,
      exec i s = .next { s with
        inputs := next ++ s.inputs
        out := resultPorts (exec (.csrchk csr (privCode s.rf.curPrivilege) w) s) } ∧
      ((ctx.csrDefined = false ∨ (resultPorts (exec i s)).allowed = false) →
        next = [encode (.exctake s.cfg.illegalCode ctx.pc ctx.info ctx.ext)]) ∧
      (ctx.csrDefined = true → (resultPorts (exec i s)).allowed = true →
        next = if w = true then ctx.writes.map .writer else [])

/-- R83, R131, R155 (log entry 6): the step of RV.CSRRW leaves the Register File alone. If the CSR is undefined or the access
denied, the next step takes the illegal-instruction exception; if it is granted, the next step is the data path's write. -/
def Obligations.CsrrwTrapsOrWritesInTheNextStep : Prop :=
  ∀ (s : State) (csr : BitVec 12) (rs1 rd : BitVec 5) (ctx : Caller) (rest : List Input), s.Live →
    s.inputs = .insn (csr ++ rs1 ++ 0b001#3 ++ rd ++ 0b1110011#7) ctx :: rest →
    ∃ t, step s = .next t ∧ t.rf = s.rf ∧ t.latch = s.latch ∧ t.cfg = s.cfg ∧
      (ctx.csrDefined = false ∨ t.out.allowed = false →
        step t = exec (.exctake s.cfg.illegalCode ctx.pc ctx.info ctx.ext) { t with inputs := rest }) ∧
      (∀ v, ctx.csrDefined = true → t.out.allowed = true → ctx.writes = [v] →
        step t = .next { t with inputs := rest, rf := applyWrite s.cfg v s.rf, out := {} })

/-- R128, R131, R157 (log entries 1, 22): an instruction step of the hart first asks for an interrupt, at the instruction's
address. If one is let through, the step is IRQTAKE and the instruction is dropped; otherwise nothing is driven and what the
instruction presents comes next, before all else: the caller-side instruction of a word of R74, EXCTAKE for an instruction that
raises an exception, nothing for a quiet one. That the next step refuses a word outside R74 is the model's own (log entry 19,
DEDUCED); none of these rules says it. -/
def Obligations.HartStepAsksForAnInterruptFirst : Prop :=
  ∀ (s : State) (a : HartAct) (rest : List Input), s.Live → s.cfg.irqBits = 0xAAA#64 →
    s.inputs = .hartStep a :: rest →
    (firstInterrupt s s.rf.curPrivilege ≠ none → step s = exec (.irqtake a.pc) { s with inputs := rest }) ∧
    (firstInterrupt s s.rf.curPrivilege = none → ∃ next : List Input,
      step s = .next { s with inputs := next ++ rest, out := {} } ∧
      (∀ w ctx i, a = .word w ctx → decodeInsn w ctx = some i →
        step { s with inputs := next ++ rest, out := {} } = exec i { s with inputs := rest, out := {} }) ∧
      (∀ w ctx, a = .word w ctx → decodeInsn w ctx = none →
        step { s with inputs := next ++ rest, out := {} } = .refused (.outsideWord w)) ∧
      (∀ code pc info ext, a = .raises code pc info ext →
        step { s with inputs := next ++ rest, out := {} } =
          exec (.exctake code pc info ext) { s with inputs := rest, out := {} }) ∧
      (∀ pc, a = .quiet pc → next = []))

/-- R157: the two-command form. TRAPENT with the answer of IRQRES (of EXCRES) at the current privilege is IRQTAKE (EXCTAKE), but
for the resolver's ports, in every state `v` that writers left at that privilege with the registers the resolver reads; and
while the privilege stands its only Fatal outcome is `TVEC_MODE`, whatever else they wrote. -/
def Obligations.TwoCommandFormIsTheComposite : Prop :=
  ∀ (s u v : State) (pc : Word), s.Live → v.Live → v.cfg = s.cfg → v.rf.curPrivilege = s.rf.curPrivilege →
    (exec (.irqres (privCode s.rf.curPrivilege)) s = .next u → u.out.resValid = true →
      (∀ f, exec (.trapent u.out.resPriv true u.out.resCode pc none none) v = .fault f → f = .tvecMode) ∧
      (v.rf.mip = s.rf.mip → v.rf.mie = s.rf.mie → v.rf.mideleg = s.rf.mideleg →
        v.rf.mstatus.mie = s.rf.mstatus.mie → v.rf.mstatus.sie = s.rf.mstatus.sie →
        exec (.irqtake pc) v =
          match exec (.trapent u.out.resPriv true u.out.resCode pc none none) v with
          | .next x => .next { x with
              out := { x.out with resValid := true, resCode := u.out.resCode, resPriv := u.out.resPriv } }
          | .fault f => .fault f
          | .refused r => .refused r)) ∧
    (∀ code info ext, exec (.excres code (privCode s.rf.curPrivilege)) s = .next u →
      (∀ f, exec (.trapent u.out.resPriv false code pc info ext) v = .fault f → f = .tvecMode) ∧
      (v.rf.medeleg = s.rf.medeleg →
        exec (.exctake code pc info ext) v =
          match exec (.trapent u.out.resPriv false code pc info ext) v with
          | .next x => .next { x with out := { x.out with resPriv := u.out.resPriv } }
          | .fault f => .fault f
          | .refused r => .refused r))

/-! ## Other agents -/

/-- R41: another agent's write changes no privilege and no latch, and exactly the field it is of; R19 and R25 give the layout
of the registers written whole. The model's reading: the write completes as a step of its own and is not legalised (log entry
13), every result port is 0 (log entry 10), the unnamed bits of mstatus are kept as written (log entry 11), and an XLEN-bit
value is cut to XLEN bits (log entry 12). -/
def Obligations.WritersNeverTouchPrivilegeOrLatch : Prop :=
  ∀ (s : State) (w : Write) (rest : List Input), s.inputs = .writer w :: rest →
    ∃ t, step s = .next t ∧ t.rf.curPrivilege = s.rf.curPrivilege ∧ t.latch = s.latch ∧ t.cfg = s.cfg ∧
      t.inputs = rest ∧ t.out = {} ∧ t.fresh = s.fresh ∧
      t.rf = match w with
        | .statusBit .sie b => { s.rf with mstatus := { s.rf.mstatus with sie := b } }
        | .statusBit .mie b => { s.rf with mstatus := { s.rf.mstatus with mie := b } }
        | .statusBit .spie b => { s.rf with mstatus := { s.rf.mstatus with spie := b } }
        | .statusBit .mpie b => { s.rf with mstatus := { s.rf.mstatus with mpie := b } }
        | .statusBit .spp b => { s.rf with mstatus := { s.rf.mstatus with spp := b } }
        | .statusBit .mprv b => { s.rf with mstatus := { s.rf.mstatus with mprv := b } }
        | .statusBit .tvm b => { s.rf with mstatus := { s.rf.mstatus with tvm := b } }
        | .mpp v => { s.rf with mstatus := { s.rf.mstatus with mpp := v } }
        | .xl .user v => { s.rf with mstatus := { s.rf.mstatus with uxl := v } }
        | .xl .supervisor v => { s.rf with mstatus := { s.rf.mstatus with sxl := v } }
        | .xl .machine v => { s.rf with mstatus := { s.rf.mstatus with mxl := v } }
        | .mstatus v => { s.rf with mstatus := { s.rf.mstatus with
            sie := v.getLsbD 1, mie := v.getLsbD 3, spie := v.getLsbD 5, mpie := v.getLsbD 7, spp := v.getLsbD 8,
            mpp := v.extractLsb' 11 2, mprv := v.getLsbD 17, tvm := v.getLsbD 20,
            uxl := if s.cfg.xlen = .rv64 then v.extractLsb' 32 2 else s.rf.mstatus.uxl
            sxl := if s.cfg.xlen = .rv64 then v.extractLsb' 34 2 else s.rf.mstatus.sxl
            other := v &&& s.cfg.xlen.mask &&& ~~~mstatusFieldMask s.cfg.xlen } }
        | .mcause v => { s.rf with mcause := {
            intr := v.getLsbD (s.cfg.xlen.bits - 1), code := BitVec.ofNat 63 (v.toNat % 2 ^ (s.cfg.xlen.bits - 1)) } }
        | .scause v => { s.rf with scause := {
            intr := v.getLsbD (s.cfg.xlen.bits - 1), code := BitVec.ofNat 63 (v.toNat % 2 ^ (s.cfg.xlen.bits - 1)) } }
        | .reg .mepc v => { s.rf with mepc := fit s.cfg v }
        | .reg .sepc v => { s.rf with sepc := fit s.cfg v }
        | .reg .mtval v => { s.rf with mtval := fit s.cfg v }
        | .reg .stval v => { s.rf with stval := fit s.cfg v }
        | .reg .mtvec v => { s.rf with mtvec := fit s.cfg v }
        | .reg .stvec v => { s.rf with stvec := fit s.cfg v }
        | .reg .medeleg v => { s.rf with medeleg := fit s.cfg v }
        | .reg .mideleg v => { s.rf with mideleg := fit s.cfg v }
        | .reg .mie v => { s.rf with mie := fit s.cfg v }
        | .reg .mip v => { s.rf with mip := fit s.cfg v }
        | .mcounteren v => { s.rf with mcounteren := v }
        | .scounteren v => { s.rf with scounteren := v }
        | .stce b => { s.rf with stce := b }

/-- R17, R19, R25: reading back a packed register that was written whole gives the XLEN bits written; the named fields of mstatus
stand at the positions of R19, UXL and SXL with XLEN = 64 alone; and a cause register has its flag at bit XLEN-1 and its code
below. The bits without a name, and fields without a position, are kept as the model's choice (log entry 11). -/
def Obligations.PackedRegistersReadBack : Prop :=
  ∀ (x : XLen) (v : Word) (m : Mstatus),
    (m.unpack x v).pack x = v &&& x.mask ∧ (Cause.unpack x v).pack x = v &&& x.mask ∧
    (m.unpack x v).sie = v.getLsbD 1 ∧ (m.unpack x v).mie = v.getLsbD 3 ∧ (m.unpack x v).spie = v.getLsbD 5 ∧
    (m.unpack x v).mpie = v.getLsbD 7 ∧ (m.unpack x v).spp = v.getLsbD 8 ∧
    (m.unpack x v).mpp.getLsbD 0 = v.getLsbD 11 ∧ (m.unpack x v).mpp.getLsbD 1 = v.getLsbD 12 ∧
    (m.unpack x v).mprv = v.getLsbD 17 ∧ (m.unpack x v).tvm = v.getLsbD 20 ∧
    (x = .rv64 → (m.unpack x v).uxl.getLsbD 0 = v.getLsbD 32 ∧ (m.unpack x v).uxl.getLsbD 1 = v.getLsbD 33 ∧
      (m.unpack x v).sxl.getLsbD 0 = v.getLsbD 34 ∧ (m.unpack x v).sxl.getLsbD 1 = v.getLsbD 35) ∧
    (x = .rv32 → (m.unpack x v).uxl = m.uxl ∧ (m.unpack x v).sxl = m.sxl) ∧ (m.unpack x v).mxl = m.mxl ∧
    (Cause.unpack x v).intr = v.getLsbD (x.bits - 1) ∧
    (∀ b, b < x.bits - 1 → (Cause.unpack x v).code.getLsbD b = v.getLsbD b) ∧
    (∀ b, x.bits - 1 ≤ b → (Cause.unpack x v).code.getLsbD b = false)

/-! ## Invariants and runs -/

/-- The invariant holds right after reset. It rests on reset values that are the model's choice (log entries 2, 5). -/
def Obligations.ResetMeetsInvariant : Prop := State.reset.Inv

/-- Every step keeps the invariant (R6, R20, R25, R41): registers within their widths, MPP a privilege. -/
def Obligations.StepKeepsInvariant : Prop :=
  ∀ s t : State, s.Inv → step s = .next t → t.Inv

/-- R135, as a step: from a careful state a step answers a next state, and that state is careful. `CarefulCallersNeverStop` says
what the duties are; their form as a check on the inputs is the model's (log entries 1, 22). -/
def Obligations.StepKeepsCareful : Prop :=
  ∀ s : State, s.Careful → ∃ t, step s = .next t ∧ t.Careful

/-- R135: the Fatal conditions are unreachable given correct upstream checks. From a careful state, with callers and writers
that keep their duties, no number of steps meets a Fatal or a Refused outcome. The duties: an instruction executes only in a
hart step, after the interrupt question (R131, R157), MRET at M (R154), SRET with `HAVE_S` and not at U (R153), TRAPENT with the
answer a resolver gives in that state (R157), a privilege operand that codes a privilege (R71), and writes that keep R41, R150
and R159. Their form as a check on the inputs is the model's (log entries 1, 22). -/
def Obligations.CarefulCallersNeverStop : Prop :=
  ∀ (n : Nat) (s : State), s.Careful → SafeFor n s
end

