-- ==== Sys2Proof/Laws/State.lean ====
section
/-! SUPPORT. One lemma per field per state update, true by unfolding the update. -/

namespace Sys2Proof.Machine

section Updates
variable (s : State) (rf : RegFile) (r : Results) (es : List Input)

@[simp] theorem withRf_cfg : (s.withRf rf).cfg = s.cfg := rfl
@[simp] theorem withRf_rf : (s.withRf rf).rf = rf := rfl
@[simp] theorem withRf_latch : (s.withRf rf).latch = s.latch := rfl
@[simp] theorem withRf_out : (s.withRf rf).out = s.out := rfl
@[simp] theorem withRf_inputs : (s.withRf rf).inputs = s.inputs := rfl
@[simp] theorem withRf_fresh : (s.withRf rf).fresh = s.fresh := rfl

@[simp] theorem withOut_cfg : (s.withOut r).cfg = s.cfg := rfl
@[simp] theorem withOut_rf : (s.withOut r).rf = s.rf := rfl
@[simp] theorem withOut_latch : (s.withOut r).latch = s.latch := rfl
@[simp] theorem withOut_out : (s.withOut r).out = r := rfl
@[simp] theorem withOut_inputs : (s.withOut r).inputs = s.inputs := rfl
@[simp] theorem withOut_fresh : (s.withOut r).fresh = s.fresh := rfl

@[simp] theorem withInputs_cfg : (s.withInputs es).cfg = s.cfg := rfl
@[simp] theorem withInputs_rf : (s.withInputs es).rf = s.rf := rfl
@[simp] theorem withInputs_latch : (s.withInputs es).latch = s.latch := rfl
@[simp] theorem withInputs_out : (s.withInputs es).out = s.out := rfl
@[simp] theorem withInputs_inputs : (s.withInputs es).inputs = es := rfl
@[simp] theorem withInputs_fresh : (s.withInputs es).fresh = s.fresh := rfl

end Updates

section Cycles
variable (s : State) (w : Write)

@[simp] theorem idleCycle_cfg : (idleCycle s).cfg = s.cfg := rfl
@[simp] theorem idleCycle_rf : (idleCycle s).rf = s.rf := rfl
@[simp] theorem idleCycle_latch : (idleCycle s).latch = s.latch := rfl
@[simp] theorem idleCycle_out : (idleCycle s).out = {} := rfl
@[simp] theorem idleCycle_inputs : (idleCycle s).inputs = s.inputs := rfl

@[simp] theorem writerCycle_cfg : (writerCycle w s).cfg = s.cfg := rfl
@[simp] theorem writerCycle_rf : (writerCycle w s).rf = applyWrite s.cfg w s.rf := rfl
@[simp] theorem writerCycle_latch : (writerCycle w s).latch = s.latch := rfl
@[simp] theorem writerCycle_out : (writerCycle w s).out = {} := rfl
@[simp] theorem writerCycle_inputs : (writerCycle w s).inputs = s.inputs := rfl

@[simp] theorem resetCycle_cfg : (resetCycle s).cfg = s.cfg := rfl
@[simp] theorem resetCycle_rf : (resetCycle s).rf = resetRf s.cfg s.fresh := rfl
@[simp] theorem resetCycle_latch : (resetCycle s).latch = FatalLatch.clear := rfl
@[simp] theorem resetCycle_out : (resetCycle s).out = {} := rfl
@[simp] theorem resetCycle_inputs : (resetCycle s).inputs = s.inputs := rfl
@[simp] theorem resetCycle_fresh : (resetCycle s).fresh = s.fresh + freePerReset := rfl

end Cycles

section Commits
variable (c : Config) (tc : TrapContext) (rf : RegFile)

@[simp] theorem commitMachine_curPrivilege : (commitMachine c tc rf).curPrivilege = .machine := rfl
@[simp] theorem commitMachine_mcause :
    (commitMachine c tc rf).mcause = { intr := tc.isIntr, code := causeCode tc.code } := rfl
@[simp] theorem commitMachine_mstatus :
    (commitMachine c tc rf).mstatus = rf.mstatus.enterMachine rf.curPrivilege := rfl
@[simp] theorem commitMachine_mepc : (commitMachine c tc rf).mepc = fit c tc.pc := rfl
@[simp] theorem commitMachine_mtval : (commitMachine c tc rf).mtval = infoOrZero c tc.info := rfl
@[simp] theorem commitMachine_scause : (commitMachine c tc rf).scause = rf.scause := rfl
@[simp] theorem commitMachine_sepc : (commitMachine c tc rf).sepc = rf.sepc := rfl
@[simp] theorem commitMachine_stval : (commitMachine c tc rf).stval = rf.stval := rfl

@[simp] theorem commitSupervisor_curPrivilege : (commitSupervisor c tc rf).curPrivilege = .supervisor := rfl
@[simp] theorem commitSupervisor_scause :
    (commitSupervisor c tc rf).scause = { intr := tc.isIntr, code := causeCode tc.code } := rfl
@[simp] theorem commitSupervisor_mstatus :
    (commitSupervisor c tc rf).mstatus = rf.mstatus.enterSupervisor rf.curPrivilege := rfl
@[simp] theorem commitSupervisor_sepc : (commitSupervisor c tc rf).sepc = fit c tc.pc := rfl
@[simp] theorem commitSupervisor_stval : (commitSupervisor c tc rf).stval = infoOrZero c tc.info := rfl
@[simp] theorem commitSupervisor_mcause : (commitSupervisor c tc rf).mcause = rf.mcause := rfl
@[simp] theorem commitSupervisor_mepc : (commitSupervisor c tc rf).mepc = rf.mepc := rfl
@[simp] theorem commitSupervisor_mtval : (commitSupervisor c tc rf).mtval = rf.mtval := rfl

/-- A trap entry leaves every register alone that is neither the current privilege, mstatus, nor a cause, epc or tval
register (R37). -/
theorem commitTrap_frame (l : TrapLevel) :
    let t := commitTrap c l tc rf
    t.mtvec = rf.mtvec ∧ t.stvec = rf.stvec ∧ t.medeleg = rf.medeleg ∧ t.mideleg = rf.mideleg ∧ t.mie = rf.mie ∧
      t.mip = rf.mip ∧ t.mcounteren = rf.mcounteren ∧ t.scounteren = rf.scounteren ∧ t.stce = rf.stce := by
  cases l <;> exact ⟨rfl, rfl, rfl, rfl, rfl, rfl, rfl, rfl, rfl⟩

end Commits

end Sys2Proof.Machine
end

