-- ==== Sys2Proof/Laws/Operands.lean ====
section
/-! SUPPORT. Laws of the operand forms. -/

namespace Sys2Proof.Machine

@[simp] theorem fit_fit (c : Config) (v : Word) : fit c (fit c v) = fit c v := by
  simp [fit, BitVec.and_assoc]

@[simp] theorem fit_zero (c : Config) : fit c 0#64 = 0#64 := by simp [fit]

/-- Masking a value that fits leaves one that fits. -/
theorem fit_and (c : Config) (v m : Word) : fit c (v &&& m) = fit c v &&& m := by
  simp only [fit, BitVec.and_assoc, BitVec.and_comm m]

@[simp] theorem fit_infoOrZero (c : Config) (o : Option Word) : fit c (infoOrZero c o) = infoOrZero c o := by
  cases o <;> simp [infoOrZero]

@[simp] theorem fit_tvecBase (c : Config) (v : Word) : fit c (tvecBase c v) = tvecBase c v := by
  simp [tvecBase, fit_and]

@[simp] theorem fit_alignPc (c : Config) (v : Word) : fit c (alignPc c v) = alignPc c v := by simp [alignPc]

@[simp] theorem fit_tvecAddr (c : Config) (v : Word) (k : Bool) (code : BitVec 8) :
    fit c (tvecAddr c v k code) = tvecAddr c v k code := by
  unfold tvecAddr; split <;> simp

@[simp] theorem privOfCode_privCode (p : Priv) : privOfCode (privCode p) = some p := by cases p <;> rfl

theorem privCode_injective {p q : Priv} (h : privCode p = privCode q) : p = q := by
  cases p <;> cases q <;> first | rfl | exact absurd h (by decide)

/-- A code stands for `p` exactly when it is the code of `p`. -/
theorem privOfCode_eq_some {b : BitVec 2} {p : Priv} : privOfCode b = some p ↔ b = privCode p := by
  revert b; cases p <;> decide

/-- Only `0b10` codes no privilege (R11). -/
theorem privOfCode_eq_none {b : BitVec 2} : privOfCode b = none ↔ b = 0b10#2 := by revert b; decide

theorem privCode_ne_invalid (p : Priv) : privCode p ≠ 0b10#2 := by cases p <;> decide

/-- A cause code of 8 bits fits either width. -/
@[simp] theorem causeCode_and_mask (x : XLen) (code : BitVec 8) :
    causeCode code &&& causeCodeMask x = causeCode code := by
  revert code; cases x <;> decide

/-- MODE is reserved exactly when bit 1 of the register is set (R26). -/
theorem modeReserved_iff (v : Word) : (2#2).ule (tvecMode v) = v.getLsbD 1 := by
  have h0 : (tvecMode v).getLsbD 0 = v.getLsbD 0 := by simp [tvecMode]
  have h1 : (tvecMode v).getLsbD 1 = v.getLsbD 1 := by simp [tvecMode]
  rw [← h1]
  generalize tvecMode v = m at *
  clear h0 h1
  revert m; decide

/-- MODE 1 is bit 0 set and bit 1 clear. -/
theorem modeVectored_iff (v : Word) : tvecMode v = 1#2 ↔ v.getLsbD 0 = true ∧ v.getLsbD 1 = false := by
  have h0 : (tvecMode v).getLsbD 0 = v.getLsbD 0 := by simp [tvecMode]
  have h1 : (tvecMode v).getLsbD 1 = v.getLsbD 1 := by simp [tvecMode]
  rw [← h0, ← h1]
  generalize tvecMode v = m at *
  clear h0 h1
  revert m; decide

end Sys2Proof.Machine
end

