-- ==== Sys2Proof/Laws/CsrAccess.lean ====
section
/-! SUPPORT. What each of the six checks of CSRCHK says (R76 to R81). -/

namespace Sys2Proof.Machine

variable {c : Config} {rf : RegFile} {csr : BitVec 12} {p : Priv} {w : Bool}

theorem accessModeOk_iff : accessModeOk c csr w = true ↔
    accClass c.accDecode (csr.extractLsb' 10 2) ≠ .noAccess ∧
      ¬(w = true ∧ accClass c.accDecode (csr.extractLsb' 10 2) = .readOnly) := by
  unfold accessModeOk csrAcc
  split <;> rename_i h <;> simp [h]

theorem privilegeOk_iff : privilegeOk csr p = true ↔ (csr.extractLsb' 8 2).toNat ≤ (privCode p).toNat :=
  decide_eq_true_iff

theorem tvmOk_iff : tvmOk c rf csr p = true ↔
    ¬(csr = c.satpAddr ∧ p = .supervisor ∧ rf.mstatus.tvm = true) := by
  unfold tvmOk
  by_cases h : csr = c.satpAddr <;> cases p <;> simp [h]

theorem inCounterRange_iff : inCounterRange c csr = true ↔
    (c.ctrLo.toNat ≤ csr.toNat ∧ csr.toNat ≤ c.ctrHi.toNat) ∨
      (c.ctrHiGated = true ∧ 0xC80 ≤ csr.toNat ∧ csr.toNat ≤ 0xC9F) := by
  simp only [inCounterRange, Bool.or_eq_true, Bool.and_eq_true, and_assoc]
  exact or_congr (and_congr decide_eq_true_iff decide_eq_true_iff)
    (and_congr Iff.rfl (and_congr decide_eq_true_iff decide_eq_true_iff))

theorem counterOk_iff : counterOk c rf csr p = true ↔ (inCounterRange c csr = true →
    p = .machine ∨ rf.mcounteren.getLsbD (csr.toNat % 32) = true ∧
      (p = .supervisor ∨ c.haveS = false ∨ rf.scounteren.getLsbD (csr.toNat % 32) = true)) := by
  have hi : (csrCounterIndex csr).toNat = csr.toNat % 32 := by simp [csrCounterIndex]
  simp only [counterOk, hi]
  cases p <;> split <;> simp_all

theorem timeCompareOk_iff : timeCompareOk c rf csr p = true ↔ (csr = c.stimecmpA ∨ csr = c.stimecmpB →
    p = .machine ∨ p = .supervisor ∧ rf.mcounteren.getLsbD 1 = true ∧ rf.stce = true) := by
  unfold timeCompareOk
  by_cases h : csr = c.stimecmpA ∨ csr = c.stimecmpB <;> cases p <;> simp [h]

theorem entropyOk_iff : entropyOk c csr p w = true ↔ (csr = c.seedAddr → w = true ∧ p = .machine) := by
  unfold entropyOk
  by_cases h : csr = c.seedAddr <;> simp [h]

end Sys2Proof.Machine
end

