-- ==== Sys2Proof/Laws/Decode.lean ====
section
/-! SUPPORT. The fields of a CSR instruction word are where the encoder puts them (R74). -/

namespace Sys2Proof

section Fields
variable (csr : BitVec 12) (rs1 : BitVec 5) (f : BitVec 3) (rd : BitVec 5)

@[simp] theorem insnCsr_csrInsnWord : insnCsr (csrInsnWord csr rs1 f rd) = csr := by
  apply BitVec.eq_of_getLsbD_eq
  intro i hi
  simp only [insnCsr, csrInsnWord, BitVec.getLsbD_extractLsb', BitVec.getLsbD_append]
  interval_cases i <;> simp

@[simp] theorem insnRs1_csrInsnWord : insnRs1 (csrInsnWord csr rs1 f rd) = rs1 := by
  apply BitVec.eq_of_getLsbD_eq
  intro i hi
  simp only [insnRs1, csrInsnWord, BitVec.getLsbD_extractLsb', BitVec.getLsbD_append]
  interval_cases i <;> simp

@[simp] theorem insnFunct3_csrInsnWord : insnFunct3 (csrInsnWord csr rs1 f rd) = f := by
  apply BitVec.eq_of_getLsbD_eq
  intro i hi
  simp only [insnFunct3, csrInsnWord, BitVec.getLsbD_extractLsb', BitVec.getLsbD_append]
  interval_cases i <;> simp

@[simp] theorem insnRd_csrInsnWord : insnRd (csrInsnWord csr rs1 f rd) = rd := by
  apply BitVec.eq_of_getLsbD_eq
  intro i hi
  simp only [insnRd, csrInsnWord, BitVec.getLsbD_extractLsb', BitVec.getLsbD_append]
  interval_cases i <;> simp

@[simp] theorem insnOpcode_csrInsnWord : insnOpcode (csrInsnWord csr rs1 f rd) = 0b1110011#7 := by
  apply BitVec.eq_of_getLsbD_eq
  intro i hi
  simp only [insnOpcode, csrInsnWord, BitVec.getLsbD_extractLsb', BitVec.getLsbD_append]
  interval_cases i <;> simp

/-- No CSR instruction has the word of MRET or SRET, whose bits 14:12 are 0. -/
theorem csrInsnWord_ne_xret (h : f ≠ 0#3) :
    csrInsnWord csr rs1 f rd ≠ 0x30200073#32 ∧ csrInsnWord csr rs1 f rd ≠ 0x10200073#32 := by
  have hf := insnFunct3_csrInsnWord csr rs1 f rd
  constructor <;> intro hw <;> rw [hw] at hf <;> exact h (hf.symm.trans (by decide))

end Fields

end Sys2Proof
end

