-- ==== Sys2Proof/Laws/Flags.lean ====
section
/-! SUPPORT. Bits of the packed layouts, and what the mstatus updates of the four commits leave alone (R19, R25, R37). -/

namespace Sys2Proof.Machine

/-- A bit of a one-bit field at its position. -/
theorem getLsbD_bitAt (b : Bool) {pos : Nat} (h : pos < 64) (i : Nat) :
    (bitAt pos b).getLsbD i = (b && decide (i = pos)) := by
  cases b
  · simp [bitAt]
  · simp only [bitAt, if_true, BitVec.getLsbD_shiftLeft, BitVec.getLsbD_one, Bool.true_and]
    by_cases h1 : i = pos
    · simp [h1, h]
    · simp only [h1, decide_false]
      by_cases h2 : i < pos <;> simp [h2]
      omega

/-- A bit of a two-bit field at its position. -/
theorem getLsbD_pairAt (v : BitVec 2) {pos : Nat} (h : pos < 62) (i : Nat) :
    (pairAt pos v).getLsbD i = (decide (pos ≤ i) && v.getLsbD (i - pos)) := by
  by_cases hv : i - pos < 2
  · simp only [pairAt, BitVec.getLsbD_shiftLeft, BitVec.getLsbD_setWidth]
    have h64 : i < 64 := by omega
    by_cases h1 : i < pos
    · simp [h1, Nat.not_le.2 h1]
    · simp [h1, Nat.not_lt.1 h1, h64, show i - pos < 64 by omega]
  · have : v.getLsbD (i - pos) = false := BitVec.getLsbD_of_ge _ _ (by omega)
    simp [pairAt, this]

section Frames
variable (c : Config) (p : Priv) (m : Mstatus)

theorem enterMachine_frame : let t := m.enterMachine p
    t.sie = m.sie ∧ t.spie = m.spie ∧ t.spp = m.spp ∧ t.mprv = m.mprv ∧ t.tvm = m.tvm ∧ t.other = m.other :=
  ⟨rfl, rfl, rfl, rfl, rfl, rfl⟩

theorem enterSupervisor_frame : let t := m.enterSupervisor p
    t.mie = m.mie ∧ t.mpie = m.mpie ∧ t.mpp = m.mpp ∧ t.mprv = m.mprv ∧ t.tvm = m.tvm ∧ t.other = m.other :=
  ⟨rfl, rfl, rfl, rfl, rfl, rfl⟩

theorem leaveMachine_frame : let t := m.leaveMachine c p
    t.sie = m.sie ∧ t.spie = m.spie ∧ t.spp = m.spp ∧ t.tvm = m.tvm ∧ t.other = m.other :=
  ⟨rfl, rfl, rfl, rfl, rfl⟩

theorem leaveSupervisor_frame : let t := m.leaveSupervisor p
    t.mie = m.mie ∧ t.mpie = m.mpie ∧ t.mpp = m.mpp ∧ t.tvm = m.tvm ∧ t.other = m.other :=
  ⟨rfl, rfl, rfl, rfl, rfl⟩

end Frames

/-- A trap return to a level below Machine clears MPRV (R21). -/
theorem leaveMachine_mprv (c : Config) {p : Priv} (h : p ≠ .machine) (m : Mstatus) :
    (m.leaveMachine c p).mprv = false := by simp [Mstatus.leaveMachine, h]

theorem leaveSupervisor_mprv {p : Priv} (h : p ≠ .machine) (m : Mstatus) :
    (m.leaveSupervisor p).mprv = false := by simp [Mstatus.leaveSupervisor, h]

end Sys2Proof.Machine
end

