-- ==== Sys2Proof/Laws/Ops.lean ====
section
/-! SUPPORT. What each shared operation can do, said once. -/

namespace Sys2Proof.Machine

variable {s t : State}

/-! ## Outcomes -/

theorem whenLive_live (h : s.latch.fatal = false) (k : Result) : whenLive s k = k := by simp [whenLive, h]

theorem whenLive_latched (h : s.latch.fatal = true) (k : Result) :
    whenLive s k = .refused (.afterFatal s.latch.code) := by simp [whenLive, h]

theorem whenLive_next {k : Result} : whenLive s k = .next t ↔ s.latch.fatal = false ∧ k = .next t := by
  cases h : s.latch.fatal <;> simp [whenLive, h]

theorem whenLive_fault {k : Result} {f : Fault} : whenLive s k = .fault f ↔ s.latch.fatal = false ∧ k = .fault f := by
  cases h : s.latch.fatal <;> simp [whenLive, h]

theorem whenLive_refused {k : Result} {r : Refusal} : whenLive s k = .refused r ↔
    s.latch.fatal = true ∧ r = .afterFatal s.latch.code ∨ s.latch.fatal = false ∧ k = .refused r := by
  cases h : s.latch.fatal <;> simp [whenLive, h, eq_comm]

@[simp] theorem withPriv_privCode (p : Priv) (k : Priv → Result) : withPriv (privCode p) k = k p := by
  simp [withPriv]

@[simp] theorem withPriv_invalid (k : Priv → Result) : withPriv 0b10#2 k = .refused .privilegeOperand := rfl

/-- An operation behind a privilege operand answers only for a code that stands for a privilege. -/
theorem withPriv_next {b : BitVec 2} {k : Priv → Result} :
    withPriv b k = .next t ↔ ∃ p, b = privCode p ∧ k p = .next t := by
  unfold withPriv
  cases h : privOfCode b with
  | none => simp only [reduceCtorEq, false_iff]; rintro ⟨p, rfl, -⟩; simp at h
  | some p =>
    rw [privOfCode_eq_some] at h; subst h
    exact ⟨fun hk => ⟨p, rfl, hk⟩, fun ⟨q, hq, hk⟩ => privCode_injective hq ▸ hk⟩

/-! ## Resolving -/

theorem selectPending_eq_none {m : Word} (h : selectPending m = none) :
    ∀ b ∈ [11, 3, 7, 9, 1, 5], m.getLsbD b = false := by
  unfold selectPending at h
  repeat' split at h
  all_goals simp_all

/-- The resolver of exceptions, as R94's table. -/
theorem resolveException_eq (c : Config) (rf : RegFile) (code : BitVec 8) (p : Priv) :
    resolveException c rf code p =
      if exceptionDelegated c rf code = true ∧ p ≠ .machine then .supervisor else .machine := by
  cases h : exceptionDelegated c rf code <;> cases p <;> simp [resolveException, h] <;> decide

/-- When an exception code is delegated (R27, R93). -/
theorem exceptionDelegated_iff {c : Config} {rf : RegFile} {code : BitVec 8} :
    exceptionDelegated c rf code = true ↔
      c.haveS = true ∧ code.toNat < c.xlen.bits ∧ rf.medeleg.getLsbD code.toNat = true := by
  cases h : c.haveS <;> simp [exceptionDelegated, medelegEff, h]

/-- An exception is delegated only on a hart with Supervisor (R27). -/
theorem haveS_of_exceptionDelegated {c : Config} {rf : RegFile} {code : BitVec 8}
    (h : exceptionDelegated c rf code = true) : c.haveS = true :=
  (exceptionDelegated_iff.1 h).1

/-- What the resolver of interrupts reads: mip, mie, mideleg, MIE and SIE, beside the privilege and the parameters (R157). -/
theorem resolveInterrupt_congr {c : Config} {rf rf' : RegFile} {p : Priv} (hp : rf'.mip = rf.mip) (he : rf'.mie = rf.mie)
    (hd : rf'.mideleg = rf.mideleg) (hm : rf'.mstatus.mie = rf.mstatus.mie) (hs : rf'.mstatus.sie = rf.mstatus.sie) :
    resolveInterrupt c rf' p = resolveInterrupt c rf p := by
  have hM : machineOwned c rf' = machineOwned c rf := by simp only [machineOwned, pendingEnabled, midelegEff, hp, he, hd]
  have hS : supervisorOwned c rf' = supervisorOwned c rf := by
    simp only [supervisorOwned, pendingEnabled, midelegEff, hp, he, hd]
  unfold resolveInterrupt machineVisible supervisorVisible
  rw [hM, hS, hm, hs]

/-- What the resolver of exceptions reads: medeleg, beside the privilege and the parameters (R93). -/
theorem resolveException_congr {c : Config} {rf rf' : RegFile} {code : BitVec 8} {p : Priv}
    (h : rf'.medeleg = rf.medeleg) : resolveException c rf' code p = resolveException c rf code p := by
  unfold resolveException exceptionDelegated medelegEff
  rw [h]

/-- The resolver of interrupts: a Machine target, or a Supervisor target with its two preconditions (R96). -/
theorem resolveInterrupt_cases {c : Config} {rf : RegFile} {p : Priv} {code : BitVec 8} {t : Priv}
    (h : resolveInterrupt c rf p = some (code, t)) :
    t = .machine ∨ t = .supervisor ∧ c.haveS = true ∧ p ≠ .machine := by
  unfold resolveInterrupt at h
  split at h
  · simp only [Option.map_eq_some_iff, Prod.mk.injEq] at h; obtain ⟨_, -, -, rfl⟩ := h; exact .inl rfl
  · split at h
    · rename_i hv
      simp only [Option.map_eq_some_iff, Prod.mk.injEq] at h
      obtain ⟨_, -, -, rfl⟩ := h
      refine .inr ⟨rfl, ?_, ?_⟩
      · by_contra hs; simp [supervisorOwned, midelegEff, hs] at hv
      · rintro rfl; simp [supervisorVisible] at hv
    · simp at h

/-! ## Trap entry -/

/-- The checks pass in exactly two ways (R98). -/
theorem checkEntry_ok {c : Config} {rf : RegFile} {b : BitVec 2} {l : TrapLevel} :
    checkEntry c rf b = .ok l ↔
      b = privCode (trapLevelPriv l) ∧ (2#2).ule (tvecMode (tvecOf rf l)) = false ∧
        (l = .supervisor → c.haveS = true ∧ rf.curPrivilege ≠ .machine) := by
  unfold checkEntry checkMode
  cases h : privOfCode b with
  | none =>
    rw [privOfCode_eq_none] at h; subst h
    cases l <;> simp [trapLevelPriv, privCode]
  | some p =>
    rw [privOfCode_eq_some] at h; subst h
    cases p <;> cases l <;> simp [trapLevelPriv, privCode] <;>
      cases (2#2).ule (tvecMode (tvecOf rf _)) <;> cases c.haveS <;> by_cases hm : rf.curPrivilege = .machine <;>
      simp_all

/-- Everything a trap entry can do when it succeeds (R101 to R106). -/
theorem takeTrap_next {b : BitVec 2} {tc : TrapContext} {base : Results} :
    takeTrap b tc base s = .next t ↔ ∃ l, checkEntry s.cfg s.rf b = .ok l ∧
      t = (s.withRf (commitTrap s.cfg l tc s.rf)).withOut (entryResults s.cfg s.rf l tc base) := by
  unfold takeTrap
  cases checkEntry s.cfg s.rf b <;> simp [eq_comm]

/-- A trap entry is never Refused. -/
theorem takeTrap_not_refused (b : BitVec 2) (tc : TrapContext) (base : Results) (r : Refusal) :
    takeTrap b tc base s ≠ .refused r := by
  unfold takeTrap; split <;> simp

theorem takeException_not_refused (code : BitVec 8) (pc : Word) (info : Option Word) (ext : Option Nat) (r : Refusal) :
    takeException code pc info ext s ≠ .refused r := takeTrap_not_refused _ _ _ _

theorem takeInterrupt_not_refused (pc : Word) (r : Refusal) : takeInterrupt pc s ≠ .refused r := by
  unfold takeInterrupt
  split
  · simp [answer]
  · exact takeTrap_not_refused _ _ _ _

/-- Taking an exception is a trap entry at a level that passes every check but, perhaps, that of MODE (R108). -/
theorem takeException_next {code : BitVec 8} {pc : Word} {info : Option Word} {ext : Option Nat}
    (h : takeException code pc info ext s = .next t) :
    ∃ l, checkEntry s.cfg s.rf (privCode (trapLevelPriv l)) = .ok l ∧
      resolveException s.cfg s.rf code s.rf.curPrivilege = trapLevelPriv l ∧
      t = (s.withRf (commitTrap s.cfg l ⟨false, code, pc, info, ext⟩ s.rf)).withOut
        (entryResults s.cfg s.rf l ⟨false, code, pc, info, ext⟩ { resPriv := privCode (trapLevelPriv l) }) := by
  obtain ⟨l, hc, ht⟩ := takeTrap_next.1 h
  have hl := privCode_injective (checkEntry_ok.1 hc).1
  exact ⟨l, hl ▸ hc, hl, hl ▸ ht⟩

/-- Taking an interrupt: nothing to take, or a trap entry for the one selected (R109). -/
theorem takeInterrupt_next {pc : Word} (h : takeInterrupt pc s = .next t) :
    (resolveInterrupt s.cfg s.rf s.rf.curPrivilege = none ∧ t = s.withOut {}) ∨
    ∃ code l, resolveInterrupt s.cfg s.rf s.rf.curPrivilege = some (code, trapLevelPriv l) ∧
      checkEntry s.cfg s.rf (privCode (trapLevelPriv l)) = .ok l ∧
      t = (s.withRf (commitTrap s.cfg l ⟨true, code, pc, none, none⟩ s.rf)).withOut
        (entryResults s.cfg s.rf l ⟨true, code, pc, none, none⟩
          { resValid := true, resCode := code, resPriv := privCode (trapLevelPriv l) }) := by
  unfold takeInterrupt at h
  split at h
  · rename_i hr; exact .inl ⟨hr, by simpa [answer] using h.symm⟩
  · rename_i code p hr
    obtain ⟨l, hc, ht⟩ := takeTrap_next.1 h
    have hl := privCode_injective (checkEntry_ok.1 hc).1
    exact .inr ⟨code, l, hl ▸ hr, hl ▸ hc, hl ▸ ht⟩

/-- IRQTAKE drives `res_valid` exactly when it takes something (R109). -/
theorem takeInterrupt_resValid {pc : Word} (h : takeInterrupt pc s = .next t) :
    t.out.resValid = true ↔ resolveInterrupt s.cfg s.rf s.rf.curPrivilege ≠ none := by
  obtain ⟨hr, rfl⟩ | ⟨_, _, hr, -, rfl⟩ := takeInterrupt_next h <;> simp [hr, State.withOut, entryResults]

/-- Everything the start of a hart step can do when it succeeds: the interrupt is taken and the instruction dropped, or there
is none and what the instruction presents comes next (R128, R131). -/
theorem beginHartStep_next {a : HartAct} (h : beginHartStep a s = .next t) :
    (resolveInterrupt s.cfg s.rf s.rf.curPrivilege ≠ none ∧ execIrqtake a.pc s = .next t) ∨
    (resolveInterrupt s.cfg s.rf s.rf.curPrivilege = none ∧ s.latch.fatal = false ∧
      t = (s.withOut {}).withInputs (followUp a ++ s.inputs)) := by
  unfold beginHartStep at h
  split at h <;> try contradiction
  rename_i u hu
  obtain ⟨hl, hk⟩ := whenLive_next.1 hu
  split at h <;> obtain rfl := Host.Outcome.next.inj h <;> rename_i hv
  · exact .inl ⟨(takeInterrupt_resValid hk).1 hv, hu⟩
  · obtain ⟨hr, rfl⟩ | ⟨_, _, _, _, rfl⟩ := takeInterrupt_next hk
    · exact .inr ⟨hr, hl, rfl⟩
    · simp [State.withOut, entryResults] at hv

/-! ## Trap return -/

/-- Everything MRET can do when it succeeds (R113). -/
theorem machineReturn_next : machineReturn s = .next t ↔ ∃ p, s.rf.mstatus.mpp = privCode p ∧
    t = (s.withRf { s.rf with mstatus := s.rf.mstatus.leaveMachine s.cfg p, curPrivilege := p }).withOut
      (returnResults (alignPc s.cfg s.rf.mepc)) := by
  unfold machineReturn
  cases h : privOfCode s.rf.mstatus.mpp with
  | none => simp only [reduceCtorEq, false_iff]; rintro ⟨p, hp, -⟩; simp [hp] at h
  | some p =>
    rw [privOfCode_eq_some] at h
    refine ⟨fun hk => ⟨p, h, by simpa using hk.symm⟩, fun ⟨q, hq, ht⟩ => ?_⟩
    obtain rfl := privCode_injective (h.symm.trans hq)
    simp [ht]

/-- Everything SRET can do when it succeeds (R115). -/
theorem supervisorReturn_next : supervisorReturn s = .next t ↔ s.cfg.haveS = true ∧
    t = (s.withRf { s.rf with
        mstatus := s.rf.mstatus.leaveSupervisor (if s.rf.mstatus.spp then .supervisor else .user)
        curPrivilege := if s.rf.mstatus.spp then .supervisor else .user }).withOut
      (returnResults (alignPc s.cfg s.rf.sepc)) := by
  unfold supervisorReturn
  cases s.cfg.haveS
  · simp
  · simp only [if_true, true_and]
    exact ⟨fun hk => (Host.Outcome.next.inj hk).symm, fun ht => congrArg _ ht.symm⟩

theorem machineReturn_not_refused (r : Refusal) : machineReturn s ≠ .refused r := by
  unfold machineReturn; split <;> simp

theorem supervisorReturn_not_refused (r : Refusal) : supervisorReturn s ≠ .refused r := by
  unfold supervisorReturn; split <;> simp

/-! ## Every instruction -/

/-- The instructions that can end in an answer without a commit. -/
def mayAnswer : Instr → Bool
  | .csrchk _ _ _ | .irqsel _ | .irqres _ | .excres _ _ | .irqtake _ => true
  | _ => false

/-- The instructions that can end in a trap entry. -/
def mayEnter : Instr → Bool
  | .trapent _ _ _ _ _ _ | .exctake _ _ _ _ | .irqtake _ | .rvMret _ | .rvSret _ => true
  | _ => false

/-- The caller's CSR instructions. -/
def mayCheck : Instr → Bool
  | .rvCsrrw _ _ _ _ | .rvCsrrs _ _ _ _ | .rvCsrrc _ _ _ _ => true
  | .rvCsrrwi _ _ _ _ | .rvCsrrsi _ _ _ _ | .rvCsrrci _ _ _ _ => true
  | _ => false

/-- What the caller has in hand, for the instructions that carry it. -/
def callerOf : Instr → Option Caller
  | .rvMret ctx | .rvSret ctx | .rvCsrrw _ _ _ ctx | .rvCsrrs _ _ _ ctx => some ctx
  | .rvCsrrc _ _ _ ctx | .rvCsrrwi _ _ _ ctx | .rvCsrrsi _ _ _ ctx | .rvCsrrci _ _ _ ctx => some ctx
  | _ => none

/-- What a step of any instruction that succeeds can be: an answer on the result ports; a trap entry; an MRET; an SRET; or the
caller's CSRCHK. Every claim about all instructions is derived from these five. -/
inductive Shape (s : State) : Instr → State → Prop where
  | answered (i : Instr) (r : Results) (hc : r.cancelReservation = false) (hh : r.extHookValid = false)
      (hn : r.nextPcValid = false) (hp : r.nextPc = 0#64) (hq : r.extHookPriv = 0#2)
      (hv : ∀ pc, i = .irqtake pc → r.resValid = false)
      (hs : s.cfg.haveS = false → r.resPriv ≠ 0b01#2)
      (hi : mayAnswer i = true) :
      Shape s i (s.withOut r)
  | entered (i : Instr) (l : TrapLevel) (tc : TrapContext) (base : Results)
      (hc : checkEntry s.cfg s.rf (privCode (trapLevelPriv l)) = .ok l)
      (hv : ∀ pc, i = .irqtake pc → base.resValid = true)
      (hb : base.resPriv = 0#2 ∨ base.resPriv = privCode (trapLevelPriv l))
      (hi : mayEnter i = true) :
      Shape s i ((s.withRf (commitTrap s.cfg l tc s.rf)).withOut (entryResults s.cfg s.rf l tc base))
  | mretDone (i : Instr) (p : Priv) (hp : s.rf.mstatus.mpp = privCode p)
      (hi : i = .mret ∨ (∃ ctx, i = .rvMret ctx) ∧ s.rf.curPrivilege = .machine) :
      Shape s i ((s.withRf { s.rf with mstatus := s.rf.mstatus.leaveMachine s.cfg p, curPrivilege := p }).withOut
        (returnResults (alignPc s.cfg s.rf.mepc)))
  | sretDone (i : Instr) (hs : s.cfg.haveS = true)
      (hi : i = .sret ∨ (∃ ctx, i = .rvSret ctx) ∧ s.rf.curPrivilege ≠ .user) :
      Shape s i ((s.withRf { s.rf with
          mstatus := s.rf.mstatus.leaveSupervisor (if s.rf.mstatus.spp then .supervisor else .user)
          curPrivilege := if s.rf.mstatus.spp then .supervisor else .user }).withOut
        (returnResults (alignPc s.cfg s.rf.sepc)))
  | checked (i : Instr) (a w : Bool) (ctx : Caller) (hi : mayCheck i = true)
      (hx : callerOf i = some ctx) :
      Shape s i ((s.withOut { allowed := a }).withInputs (afterCheck s.cfg a w ctx ++ s.inputs))

/-- A trap entry has the shape of one. -/
theorem shape_of_takeException {i : Instr} {code : BitVec 8} {pc : Word} {info : Option Word} {ext : Option Nat}
    (hi : mayEnter i = true) (hn : ∀ pc, i ≠ .irqtake pc)
    (h : takeException code pc info ext s = .next t) : Shape s i t := by
  obtain ⟨l, hc, -, rfl⟩ := takeException_next h
  exact .entered i l _ _ hc (fun pc hp => absurd hp (hn pc)) (.inr rfl) hi

/-- The caller's CSRCHK has its shape. -/
theorem shape_of_presentCheck {i : Instr} {c : BitVec 12} {w : Bool} {ctx : Caller}
    (hi : callerOf i = some ctx) (hk : mayCheck i = true)
    (h : presentCheck c w ctx s = .next t) : Shape s i t := by
  obtain rfl := Host.Outcome.next.inj h
  exact .checked i _ w ctx hk hi

/-- The inversion lemma of exec: a next state has one of the five shapes, and the latch was clear. -/
theorem exec_next_shape {i : Instr} (h : exec i s = .next t) : s.latch.fatal = false ∧ Shape s i t := by
  cases i
  case csrchk csr b w =>
    obtain ⟨hl, h⟩ := whenLive_next.1 h
    obtain ⟨p, -, h⟩ := withPriv_next.1 h
    obtain rfl := Host.Outcome.next.inj h
    exact ⟨hl, .answered _ _ rfl rfl rfl rfl rfl (by simp) (by simp) rfl⟩
  case irqsel m =>
    obtain ⟨hl, h⟩ := whenLive_next.1 h
    split at h <;> obtain rfl := Host.Outcome.next.inj h <;>
      exact ⟨hl, .answered _ _ rfl rfl rfl rfl rfl (by simp) (by simp) rfl⟩
  case irqres b =>
    obtain ⟨hl, h⟩ := whenLive_next.1 h
    obtain ⟨p, -, h⟩ := withPriv_next.1 h
    split at h
    · rename_i hr
      obtain rfl := Host.Outcome.next.inj h
      refine ⟨hl, .answered _ _ rfl rfl rfl rfl rfl (by simp) (fun hs => ?_) rfl⟩
      obtain rfl | ⟨-, hs', -⟩ := resolveInterrupt_cases hr
      · simp [privCode]
      · simp [hs] at hs'
    · obtain rfl := Host.Outcome.next.inj h
      exact ⟨hl, .answered _ _ rfl rfl rfl rfl rfl (by simp) (by simp) rfl⟩
  case excres code b =>
    obtain ⟨hl, h⟩ := whenLive_next.1 h
    obtain ⟨p, -, h⟩ := withPriv_next.1 h
    obtain rfl := Host.Outcome.next.inj h
    refine ⟨hl, .answered _ _ rfl rfl rfl rfl rfl (by simp) (fun hs => ?_) rfl⟩
    have hd : exceptionDelegated s.cfg s.rf code = false := by simp [exceptionDelegated, medelegEff, hs]
    simp [resolveException_eq, hd, privCode]
  case trapent tgt k code pc info ext =>
    obtain ⟨hl, h⟩ := whenLive_next.1 h
    obtain ⟨l, hc, rfl⟩ := takeTrap_next.1 h
    exact ⟨hl, .entered _ l _ _ ((checkEntry_ok.1 hc).1 ▸ hc) (by simp) (.inl rfl) rfl⟩
  case mret =>
    obtain ⟨hl, h⟩ := whenLive_next.1 h
    obtain ⟨p, hp, rfl⟩ := machineReturn_next.1 h
    exact ⟨hl, .mretDone _ p hp (.inl rfl)⟩
  case sret =>
    obtain ⟨hl, h⟩ := whenLive_next.1 h
    obtain ⟨hs, rfl⟩ := supervisorReturn_next.1 h
    exact ⟨hl, .sretDone _ hs (.inl rfl)⟩
  case exctake code pc info ext =>
    obtain ⟨hl, h⟩ := whenLive_next.1 h
    exact ⟨hl, shape_of_takeException rfl (by simp) h⟩
  case irqtake pc =>
    obtain ⟨hl, h⟩ := whenLive_next.1 h
    obtain ⟨-, rfl⟩ | ⟨code, l, -, hc, rfl⟩ := takeInterrupt_next h
    · exact ⟨hl, .answered _ _ rfl rfl rfl rfl rfl (by simp) (by simp) rfl⟩
    · exact ⟨hl, .entered _ l _ _ hc (by simp) (.inr rfl) rfl⟩
  case rvMret ctx =>
    obtain ⟨hl, h⟩ := whenLive_next.1 h
    split at h
    · rename_i hm
      obtain ⟨p, hp, rfl⟩ := machineReturn_next.1 h
      exact ⟨hl, .mretDone _ p hp (.inr ⟨⟨ctx, rfl⟩, hm⟩)⟩
    · exact ⟨hl, shape_of_takeException rfl (by simp) h⟩
  case rvSret ctx =>
    obtain ⟨hl, h⟩ := whenLive_next.1 h
    split at h
    · rename_i hm
      obtain ⟨hs, rfl⟩ := supervisorReturn_next.1 h
      refine ⟨hl, .sretDone _ hs (.inr ⟨⟨ctx, rfl⟩, ?_⟩)⟩
      intro hu; simp [hu, privLt, privCode] at hm
    · exact ⟨hl, shape_of_takeException rfl (by simp) h⟩
  case rvCsrrw csr r rd ctx =>
    obtain ⟨hl, h⟩ := whenLive_next.1 h
    exact ⟨hl, shape_of_presentCheck rfl rfl h⟩
  case rvCsrrs csr r rd ctx =>
    obtain ⟨hl, h⟩ := whenLive_next.1 h
    exact ⟨hl, shape_of_presentCheck rfl rfl h⟩
  case rvCsrrc csr r rd ctx =>
    obtain ⟨hl, h⟩ := whenLive_next.1 h
    exact ⟨hl, shape_of_presentCheck rfl rfl h⟩
  case rvCsrrwi csr r rd ctx =>
    obtain ⟨hl, h⟩ := whenLive_next.1 h
    exact ⟨hl, shape_of_presentCheck rfl rfl h⟩
  case rvCsrrsi csr r rd ctx =>
    obtain ⟨hl, h⟩ := whenLive_next.1 h
    exact ⟨hl, shape_of_presentCheck rfl rfl h⟩
  case rvCsrrci csr r rd ctx =>
    obtain ⟨hl, h⟩ := whenLive_next.1 h
    exact ⟨hl, shape_of_presentCheck rfl rfl h⟩
  all_goals
    obtain ⟨-, h⟩ := whenLive_next.1 h
    simp at h

end Sys2Proof.Machine
end

