-- ==== Sys2Proof/Laws/PerInstr.lean ====
section
/-! SUPPORT. Family TableMatch: the encoding of every instruction matches its row of spec/opcode_table.json (R61, R72, R74). -/

namespace Sys2Proof.Laws

/-- A row of the opcode table: a 4-bit command code, or the mask and match of a 32-bit instruction word. -/
inductive TableRow where
  | cmd4 (code : BitVec 4)
  | word (mask pattern : BitVec 32)
  deriving DecidableEq, Repr

/-- An input bears a row's fixed bits. -/
def TableRow.Matches : TableRow → Input → Prop
  | .cmd4 code, .cycle p => p.rst = false ∧ p.cmdValid = true ∧ p.cmd = code
  | .word mask pattern, .insn w _ => w &&& mask = pattern
  | _, _ => False

/-- The row of each instruction, as spec/opcode_table.json gives its match and mask. -/
def rowOf : Instr → TableRow
  | .csrchk _ _ _ => .cmd4 0x0#4
  | .irqsel _ => .cmd4 0x1#4
  | .irqres _ => .cmd4 0x2#4
  | .excres _ _ => .cmd4 0x3#4
  | .trapent _ _ _ _ _ _ => .cmd4 0x4#4
  | .mret => .cmd4 0x5#4
  | .sret => .cmd4 0x6#4
  | .exctake _ _ _ _ => .cmd4 0x7#4
  | .irqtake _ => .cmd4 0x8#4
  | .reserved9 => .cmd4 0x9#4
  | .reservedA => .cmd4 0xA#4
  | .reservedB => .cmd4 0xB#4
  | .reservedC => .cmd4 0xC#4
  | .reservedD => .cmd4 0xD#4
  | .reservedE => .cmd4 0xE#4
  | .reservedF => .cmd4 0xF#4
  | .rvMret _ => .word 0xFFFFFFFF#32 0x30200073#32
  | .rvSret _ => .word 0xFFFFFFFF#32 0x10200073#32
  | .rvCsrrw _ _ _ _ => .word 0x707F#32 0x1073#32
  | .rvCsrrs _ _ _ _ => .word 0x707F#32 0x2073#32
  | .rvCsrrc _ _ _ _ => .word 0x707F#32 0x3073#32
  | .rvCsrrwi _ _ _ _ => .word 0x707F#32 0x5073#32
  | .rvCsrrsi _ _ _ _ => .word 0x707F#32 0x6073#32
  | .rvCsrrci _ _ _ _ => .word 0x707F#32 0x7073#32

theorem csrInsnWord_fixed (csr : BitVec 12) (rs1 : BitVec 5) (f : BitVec 3) (rd : BitVec 5) :
    csrInsnWord csr rs1 f rd &&& 0x707F#32 = (f.setWidth 32 <<< 12) ||| 0x73#32 := by
  apply BitVec.eq_of_getLsbD_eq
  intro i hi
  simp only [csrInsnWord, BitVec.getLsbD_and, BitVec.getLsbD_or, BitVec.getLsbD_append]
  interval_cases i <;> simp

namespace TableMatch

/-- The encoded instruction bears the fixed bits of its row. -/
def Statement (i : Instr) : Prop := (rowOf i).Matches (encode i)

theorem csrchk (csr : BitVec 12) (priv : BitVec 2) (isWrite : Bool) :
    Statement (.csrchk csr priv isWrite) := ⟨rfl, rfl, rfl⟩
theorem irqsel (mask : Word) :
    Statement (.irqsel mask) := ⟨rfl, rfl, rfl⟩
theorem irqres (priv : BitVec 2) :
    Statement (.irqres priv) := ⟨rfl, rfl, rfl⟩
theorem excres (code : BitVec 8) (priv : BitVec 2) :
    Statement (.excres code priv) := ⟨rfl, rfl, rfl⟩
theorem trapent (tgt : BitVec 2) (isIntr : Bool) (code : BitVec 8) (pc : Word) (info : Option Word) (ext : Option Nat) :
    Statement (.trapent tgt isIntr code pc info ext) := ⟨rfl, rfl, rfl⟩
theorem mret :
    Statement (.mret) := ⟨rfl, rfl, rfl⟩
theorem sret :
    Statement (.sret) := ⟨rfl, rfl, rfl⟩
theorem exctake (code : BitVec 8) (pc : Word) (info : Option Word) (ext : Option Nat) :
    Statement (.exctake code pc info ext) := ⟨rfl, rfl, rfl⟩
theorem irqtake (pc : Word) :
    Statement (.irqtake pc) := ⟨rfl, rfl, rfl⟩
theorem reserved9 :
    Statement (.reserved9) := ⟨rfl, rfl, rfl⟩
theorem reservedA :
    Statement (.reservedA) := ⟨rfl, rfl, rfl⟩
theorem reservedB :
    Statement (.reservedB) := ⟨rfl, rfl, rfl⟩
theorem reservedC :
    Statement (.reservedC) := ⟨rfl, rfl, rfl⟩
theorem reservedD :
    Statement (.reservedD) := ⟨rfl, rfl, rfl⟩
theorem reservedE :
    Statement (.reservedE) := ⟨rfl, rfl, rfl⟩
theorem reservedF :
    Statement (.reservedF) := ⟨rfl, rfl, rfl⟩
theorem rvMret (ctx : Caller) :
    Statement (.rvMret ctx) := rfl
theorem rvSret (ctx : Caller) :
    Statement (.rvSret ctx) := rfl
theorem rvCsrrw (csr : BitVec 12) (rs1 : BitVec 5) (rd : BitVec 5) (ctx : Caller) :
    Statement (.rvCsrrw csr rs1 rd ctx) := csrInsnWord_fixed _ _ _ _
theorem rvCsrrs (csr : BitVec 12) (rs1 : BitVec 5) (rd : BitVec 5) (ctx : Caller) :
    Statement (.rvCsrrs csr rs1 rd ctx) := csrInsnWord_fixed _ _ _ _
theorem rvCsrrc (csr : BitVec 12) (rs1 : BitVec 5) (rd : BitVec 5) (ctx : Caller) :
    Statement (.rvCsrrc csr rs1 rd ctx) := csrInsnWord_fixed _ _ _ _
theorem rvCsrrwi (csr : BitVec 12) (uimm : BitVec 5) (rd : BitVec 5) (ctx : Caller) :
    Statement (.rvCsrrwi csr uimm rd ctx) := csrInsnWord_fixed _ _ _ _
theorem rvCsrrsi (csr : BitVec 12) (uimm : BitVec 5) (rd : BitVec 5) (ctx : Caller) :
    Statement (.rvCsrrsi csr uimm rd ctx) := csrInsnWord_fixed _ _ _ _
theorem rvCsrrci (csr : BitVec 12) (uimm : BitVec 5) (rd : BitVec 5) (ctx : Caller) :
    Statement (.rvCsrrci csr uimm rd ctx) := csrInsnWord_fixed _ _ _ _

end TableMatch

end Sys2Proof.Laws
end

