-- ==== Sys2Proof/Laws/RegFile.lean ====
section
/-! SUPPORT. What each writer of the Register File keeps: registers within their widths (R6, R19, R25), MPP a privilege (R20),
MODE of the trap vectors not reserved (R26, R42, R150); and where the shared operations complete. -/

namespace Sys2Proof.Machine

variable {c : Config} {rf : RegFile} {s : State}

/-! ## Single values -/

theorem legalMpp_ne_invalid (b : BitVec 2) : legalMpp b ≠ 0b10#2 := by revert b; decide

theorem causeUnpack_code_fits (x : XLen) (v : Word) :
    (Cause.unpack x v).code &&& causeCodeMask x = (Cause.unpack x v).code := by
  simp [Cause.unpack, BitVec.and_assoc]

/-- Cutting the unnamed mstatus bits out twice is cutting them out once. -/
theorem statusOther_fits (x : XLen) (v : Word) :
    (v &&& x.mask &&& ~~~mstatusFieldMask x) &&& x.mask &&& ~~~mstatusFieldMask x =
      v &&& x.mask &&& ~~~mstatusFieldMask x := by
  have h (a b d : Word) : a &&& b &&& d &&& b &&& d = a &&& b &&& d := by
    apply BitVec.eq_of_getLsbD_eq
    intro i _
    simp only [BitVec.getLsbD_and]
    cases a.getLsbD i <;> cases b.getLsbD i <;> cases d.getLsbD i <;> rfl
  exact h _ _ _

theorem legalTvec_fits (c : Config) (v : Word) : fit c (legalTvec c v) = legalTvec c v := by
  simp [legalTvec, fit_and]

theorem legalTvec_bit1 (c : Config) (v : Word) : (legalTvec c v).getLsbD 1 = false := by simp [legalTvec]

/-- Both widths keep bit 1. -/
theorem fit_bit1 (c : Config) (v : Word) : (fit c v).getLsbD 1 = v.getLsbD 1 := by
  cases h : c.xlen <;> simp [fit, h, XLen.mask]

/-! ## Whole updates -/

theorem resetRf_fits (c : Config) (n : Nat) : RegFile.Fits c (resetRf c n) := by
  refine ⟨?_, ?_, ?_, ?_, ?_, ?_, ?_, ?_, ?_, ?_, ?_, ?_, ?_⟩ <;>
    simp [resetRf, legalTvec_fits, causeUnpack_code_fits, RegFile.reset]
  exact statusOther_fits _ _

theorem commitTrap_fits (l : TrapLevel) (tc : TrapContext) (h : RegFile.Fits c rf) :
    RegFile.Fits c (commitTrap c l tc rf) := by
  obtain ⟨h1, h2, h3, h4, h5, h6, h7, h8, h9, h10, h11, h12, h13⟩ := h
  cases l
  · exact ⟨fit_fit _ _, h2, fit_infoOrZero _ _, h4, h5, h6, h7, h8, h9, h10, causeCode_and_mask _ _, h12, h13⟩
  · exact ⟨h1, fit_fit _ _, h3, fit_infoOrZero _ _, h5, h6, h7, h8, h9, h10, h11, causeCode_and_mask _ _, h13⟩

theorem applyWrite_fits (w : Write) (h : RegFile.Fits c rf) : RegFile.Fits c (applyWrite c w rf) := by
  have ⟨h1, h2, h3, h4, h5, h6, h7, h8, h9, h10, h11, h12, h13⟩ := h
  cases w with
  | statusBit f b => cases f <;> exact h
  | xl l v => cases l <;> exact h
  | mstatus v => exact ⟨h1, h2, h3, h4, h5, h6, h7, h8, h9, h10, h11, h12, statusOther_fits _ _⟩
  | mcause v => exact ⟨h1, h2, h3, h4, h5, h6, h7, h8, h9, h10, causeUnpack_code_fits _ _, h12, h13⟩
  | scause v => exact ⟨h1, h2, h3, h4, h5, h6, h7, h8, h9, h10, h11, causeUnpack_code_fits _ _, h13⟩
  | reg r v =>
    cases r <;> refine ⟨?_, ?_, ?_, ?_, ?_, ?_, ?_, ?_, ?_, ?_, h11, h12, h13⟩ <;>
      simp only [applyWrite, RegFile.setReg, fit_fit] <;> assumption
  | mpp _ => exact h
  | mcounteren _ => exact h
  | scounteren _ => exact h
  | stce _ => exact h

/-- A legal write leaves a privilege in MPP (R41). -/
theorem applyWrite_mpp (w : Write) (hw : writeLegal w = true) (h : rf.mstatus.mpp ≠ 0b10#2) :
    (applyWrite c w rf).mstatus.mpp ≠ 0b10#2 := by
  cases w with
  | statusBit f b => cases f <;> exact h
  | mpp v => exact of_decide_eq_true (p := v ≠ 0b10#2) hw
  | xl l v => cases l <;> exact h
  | mstatus v => exact of_decide_eq_true (p := v.extractLsb' 11 2 ≠ 0b10#2) hw
  | reg r v => cases r <;> exact h
  | mcause _ => exact h
  | scause _ => exact h
  | mcounteren _ => exact h
  | scounteren _ => exact h
  | stce _ => exact h

/-- A checked write is legal. -/
theorem writeLegal_of_checked {w : Write} (h : writeChecked w = true) : writeLegal w = true := by
  cases w with
  | reg r v => rfl
  | _ => exact h

/-- A checked write leaves no reserved MODE (R150). -/
theorem applyWrite_mode (w : Write) (hw : writeChecked w = true)
    (hm : rf.mtvec.getLsbD 1 = false) (hs : rf.stvec.getLsbD 1 = false) :
    (applyWrite c w rf).mtvec.getLsbD 1 = false ∧ (applyWrite c w rf).stvec.getLsbD 1 = false := by
  have key {v : Word} (h : decide (tvecMode v = 0#2 ∨ tvecMode v = 1#2) = true) :
      (fit c v).getLsbD 1 = false := by
    rw [fit_bit1, ← modeReserved_iff]
    rcases of_decide_eq_true h with h | h <;> rw [h] <;> decide
  cases w with
  | reg r v =>
    cases r
    case mtvec => exact ⟨key hw, hs⟩
    case stvec => exact ⟨hm, key hw⟩
    all_goals exact ⟨hm, hs⟩
  | _ => exact ⟨hm, hs⟩

/-! ## Where the shared operations complete -/

/-- A trap entry completes at a target that its checks let through (R98). -/
theorem takeTrap_completes {b : BitVec 2} (tc : TrapContext) (base : Results)
    (hm : s.rf.mtvec.getLsbD 1 = false) (hs : s.rf.stvec.getLsbD 1 = false)
    (hb : b = 0b11#2 ∨ b = 0b01#2 ∧ s.cfg.haveS = true ∧ s.rf.curPrivilege ≠ .machine) :
    ∃ t, takeTrap b tc base s = .next t := by
  rcases hb with rfl | ⟨rfl, h1, h2⟩
  · exact ⟨_, takeTrap_next.2 ⟨.machine, checkEntry_ok.2 ⟨rfl, (modeReserved_iff _).trans hm, by simp⟩, rfl⟩⟩
  · exact ⟨_, takeTrap_next.2
      ⟨.supervisor, checkEntry_ok.2 ⟨rfl, (modeReserved_iff _).trans hs, fun _ => ⟨h1, h2⟩⟩, rfl⟩⟩

theorem takeException_completes (code : BitVec 8) (pc : Word) (info : Option Word) (ext : Option Nat)
    (hm : s.rf.mtvec.getLsbD 1 = false) (hs : s.rf.stvec.getLsbD 1 = false) :
    ∃ t, takeException code pc info ext s = .next t := by
  refine takeTrap_completes _ _ hm hs ?_
  rw [resolveException_eq]
  split
  · rename_i h; exact .inr ⟨rfl, haveS_of_exceptionDelegated h.1, h.2⟩
  · exact .inl rfl

theorem takeInterrupt_completes (pc : Word)
    (hm : s.rf.mtvec.getLsbD 1 = false) (hs : s.rf.stvec.getLsbD 1 = false) :
    ∃ t, takeInterrupt pc s = .next t := by
  unfold takeInterrupt
  split
  · exact ⟨_, rfl⟩
  · rename_i hr
    refine takeTrap_completes _ _ hm hs ?_
    rcases resolveInterrupt_cases hr with rfl | ⟨rfl, h1, h2⟩
    · exact .inl rfl
    · exact .inr ⟨rfl, h1, h2⟩

/-- MRET completes when MPP codes a privilege (R113). -/
theorem machineReturn_completes (h : s.rf.mstatus.mpp ≠ 0b10#2) : ∃ t, machineReturn s = .next t := by
  cases hb : privOfCode s.rf.mstatus.mpp with
  | none => exact absurd (privOfCode_eq_none.1 hb) h
  | some p => exact ⟨_, machineReturn_next.2 ⟨p, privOfCode_eq_some.1 hb, rfl⟩⟩

end Sys2Proof.Machine
end

