-- ==== Sys2Proof/Tests/Slice0.lean ====
section
/-! SUPPORT. The author's tests. Expected values are those of spec/95_test_vectors.md (the vector stands in the docstring) or are
written out from R61 and R74. At the end: a witness for the hypotheses of every statement that has some. -/

namespace Sys2Proof.Tests

open Sys2Proof.Machine

/-! ## Helpers -/

/-- A state of the vectors: XLEN = 32, every register not listed 0, Machine, the latch clear. -/
def vec (rf : RegFile) : State := { State.reset with rf := rf }

/-- The same without Supervisor. -/
def vecNoS (rf : RegFile) : State := { State.reset with rf := rf, cfg := { Config.vectors with haveS := false } }

/-- The registers and ports after an outcome that is a next state. -/
def after (r : Result) : Option (RegFile × Results) :=
  match r with
  | .next t => some (t.rf, t.out)
  | .fault _ => none
  | .refused _ => none

def faultOf (r : Result) : Option Fault :=
  match r with
  | .fault f => some f
  | .next _ => none
  | .refused _ => none

def refusalOf (r : Result) : Option Refusal :=
  match r with
  | .refused f => some f
  | .next _ => none
  | .fault _ => none

/-- The step in which an instruction's encoding is presented. -/
def present (i : Instr) (s : State) : Result := step { s with inputs := [encode i] }

def allowed (s : State) (csr : BitVec 12) (p : BitVec 2) (w : Bool) : Option Bool :=
  (after (present (.csrchk csr p w) s)).map (·.2.allowed)

/-- mstatus with every field 0. -/
abbrev m0 : Mstatus := Mstatus.reset
/-- The Register File with every field 0, at Machine. -/
abbrev r0 : RegFile := RegFile.reset

/-! ## WellFormed: an ill-formed term for each check -/

theorem test_wf_mask : (Instr.irqsel 0x100000000#64).wellFormed Config.vectors = false := by decide
theorem test_wf_mask64 : (Instr.irqsel 0x100000000#64).wellFormed { Config.vectors with xlen := .rv64 } = true := by decide
theorem test_wf_trapent_pc :
    (Instr.trapent 0b11#2 false 2#8 0x100000000#64 none none).wellFormed Config.vectors = false := by decide
theorem test_wf_trapent_info :
    (Instr.trapent 0b11#2 false 2#8 0#64 (some 0x100000000#64) none).wellFormed Config.vectors = false := by decide
theorem test_wf_trapent_payload :
    (Instr.trapent 0b11#2 false 2#8 0#64 none (some 256)).wellFormed Config.vectors = false := by decide
theorem test_wf_exctake_pc : (Instr.exctake 2#8 0x100000000#64 none none).wellFormed Config.vectors = false := by decide
theorem test_wf_exctake_info :
    (Instr.exctake 2#8 0#64 (some 0x100000000#64) none).wellFormed Config.vectors = false := by decide
theorem test_wf_exctake_payload : (Instr.exctake 2#8 0#64 none (some 256)).wellFormed Config.vectors = false := by decide
theorem test_wf_irqtake_pc : (Instr.irqtake 0x100000000#64).wellFormed Config.vectors = false := by decide
theorem test_wf_rvMret_pc : (Instr.rvMret { pc := 0x100000000#64 }).wellFormed Config.vectors = false := by decide
theorem test_wf_rvSret_info : (Instr.rvSret { info := some 0x100000000#64 }).wellFormed Config.vectors = false := by decide
theorem test_wf_csr_payload :
    (Instr.rvCsrrw 0#12 0#5 0#5 { ext := some 256 }).wellFormed Config.vectors = false ∧
    (Instr.rvCsrrs 0#12 0#5 0#5 { ext := some 256 }).wellFormed Config.vectors = false ∧
    (Instr.rvCsrrc 0#12 0#5 0#5 { ext := some 256 }).wellFormed Config.vectors = false ∧
    (Instr.rvCsrrwi 0#12 0#5 0#5 { ext := some 256 }).wellFormed Config.vectors = false ∧
    (Instr.rvCsrrsi 0#12 0#5 0#5 { ext := some 256 }).wellFormed Config.vectors = false ∧
    (Instr.rvCsrrci 0#12 0#5 0#5 { ext := some 256 }).wellFormed Config.vectors = false := by decide

/-! ## Decoding: words written out from R61 and R74 -/

theorem test_decode_csrchk : decode (.cycle {
    cmdValid := true, cmd := 0b0000#4, csrAddr := 0x141#12, privArg := 0b01#2,
    isWrite := true }) = .ok (.csrchk 0x141#12 0b01#2 true) := rfl
theorem test_decode_irqsel : decode (.cycle { cmdValid := true, cmd := 0b0001#4, irqMask := 0x888#64 }) =
    .ok (.irqsel 0x888#64) := rfl
theorem test_decode_irqres : decode (.cycle { cmdValid := true, cmd := 0b0010#4, privArg := 0b11#2 }) =
    .ok (.irqres 0b11#2) := rfl
theorem test_decode_excres : decode (.cycle { cmdValid := true, cmd := 0b0011#4, code := 8#8, privArg := 0b00#2 }) =
    .ok (.excres 8#8 0b00#2) := rfl
/-- P5, command 3. -/
theorem test_decode_trapent : decode (.cycle {
    cmdValid := true, cmd := 0b0100#4, tgtPriv := 0b01#2, isIntr := false,
    code := 0x08#8, pc := 0x80000400#64, infoValid := false, info := 0x55#64, extValid := true, extPayload := 3 }) =
    .ok (.trapent 0b01#2 false 8#8 0x80000400#64 none (some 3)) := rfl
theorem test_decode_mret : decodeTableWord 8 0b0101 = some .mret := rfl
theorem test_decode_sret : decodeTableWord 8 0b0110 = some .sret := rfl
/-- P4, command 1. -/
theorem test_decode_exctake : decode (.cycle {
    cmdValid := true, cmd := 0b0111#4, code := 0x0D#8, pc := 0x1000#64,
    infoValid := true, info := 0x7000#64, extValid := false }) =
    .ok (.exctake 13#8 0x1000#64 (some 0x7000#64) none) := rfl
theorem test_decode_irqtake : decode (.cycle { cmdValid := true, cmd := 0b1000#4, pc := 0x800#64 }) =
    .ok (.irqtake 0x800#64) := rfl
theorem test_decode_reserved :
    decodeTableWord 8 0b1001 = some .reserved9 ∧ decodeTableWord 8 0b1010 = some .reservedA ∧
    decodeTableWord 8 0b1011 = some .reservedB ∧ decodeTableWord 8 0b1100 = some .reservedC ∧
    decodeTableWord 8 0b1101 = some .reservedD ∧ decodeTableWord 8 0b1110 = some .reservedE ∧
    decodeTableWord 8 0b1111 = some .reservedF := ⟨rfl, rfl, rfl, rfl, rfl, rfl, rfl⟩
theorem test_decode_rvMret : decodeTableWord 32 0b0011000_00010_00000_000_00000_1110011 = some (.rvMret {}) := by decide
theorem test_decode_rvSret : decodeTableWord 32 0b0001000_00010_00000_000_00000_1110011 = some (.rvSret {}) := by decide
/-- csr 0x305, rs1 x5, rd x7. -/
theorem test_decode_rvCsrrw :
    decodeTableWord 32 0b001100000101_00101_001_00111_1110011 = some (.rvCsrrw 0x305#12 5#5 7#5 {}) := by decide
/-- csr 0xC01, rs1 x0, rd x10. -/
theorem test_decode_rvCsrrs :
    decodeTableWord 32 0b110000000001_00000_010_01010_1110011 = some (.rvCsrrs 0xC01#12 0#5 10#5 {}) := by decide
/-- csr 0x344, rs1 x31, rd x1. -/
theorem test_decode_rvCsrrc :
    decodeTableWord 32 0b001101000100_11111_011_00001_1110011 = some (.rvCsrrc 0x344#12 31#5 1#5 {}) := by decide
/-- csr 0x105, uimm 16, rd x2. -/
theorem test_decode_rvCsrrwi :
    decodeTableWord 32 0b000100000101_10000_101_00010_1110011 = some (.rvCsrrwi 0x105#12 16#5 2#5 {}) := by decide
/-- csr 0x141, uimm 10, rd x17. -/
theorem test_decode_rvCsrrsi :
    decodeTableWord 32 0b000101000001_01010_110_10001_1110011 = some (.rvCsrrsi 0x141#12 10#5 17#5 {}) := by decide
/-- csr 0x180, uimm 1, rd x0. -/
theorem test_decode_rvCsrrci :
    decodeTableWord 32 0b000110000000_00001_111_00000_1110011 = some (.rvCsrrci 0x180#12 1#5 0#5 {}) := by decide
/-- Words outside R74's table: funct3 0 with another upper part, funct3 4, another opcode. -/
theorem test_decode_outside :
    decodeTableWord 32 0x00000073 = none ∧ decodeTableWord 32 0x30004073 = none ∧
    decodeTableWord 32 0x30501033 = none := by decide
theorem test_decode_reset_wins : decode (.cycle { rst := true, cmdValid := true, cmd := 0x5#4 }) = .error .resetCycle := rfl
theorem test_decode_idle : decode (.cycle { cmd := 0x5#4 }) = .error .idleCycle := rfl

/-! ## CSRCHK (V1.7 to V1.9, V2.1) -/

theorem test_csrchk_classes :
    allowed (vec r0) 0x300#12 0b11#2 true = some true ∧ allowed (vec r0) 0x300#12 0b01#2 false = some false ∧
    allowed (vec r0) 0x200#12 0b01#2 false = some false ∧ allowed (vec r0) 0xF11#12 0b11#2 true = some false ∧
    allowed (vec r0) 0xC20#12 0b00#2 false = some true ∧ allowed (vec r0) 0x015#12 0b11#2 true = some true ∧
    allowed (vec r0) 0x015#12 0b11#2 false = some false ∧
    allowed (vec { r0 with mstatus := { m0 with tvm := true } }) 0x180#12 0b01#2 false = some false ∧
    allowed (vec { r0 with mstatus := { m0 with tvm := true } }) 0x181#12 0b01#2 false = some true := by decide

theorem test_csrchk_gates :
    allowed (vec { r0 with scounteren := 0x20#32 }) 0xC05#12 0b01#2 false = some false ∧
    allowed (vec { r0 with mcounteren := 0x80000001#32, scounteren := 1#32 }) 0xC1F#12 0b01#2 false = some true ∧
    allowed (vec { r0 with mcounteren := 0x80000001#32, scounteren := 1#32 }) 0xC1F#12 0b00#2 false = some false ∧
    allowed (vecNoS { r0 with mcounteren := 0x20#32 }) 0xC05#12 0b00#2 false = some true ∧
    allowed (vec { r0 with mcounteren := 2#32 }) 0x14D#12 0b01#2 true = some false ∧
    allowed (vec { r0 with mcounteren := 2#32, stce := true }) 0x15D#12 0b01#2 false = some true ∧
    allowed { vec r0 with cfg := { Config.vectors with accDecode := AccDecode.printed } } 0xC05#12 0b11#2 false =
      some false ∧
    refusalOf (present (.csrchk 0x300#12 0b10#2 false) (vec r0)) = some .privilegeOperand := by decide

/-! ## IRQSEL, IRQRES, EXCRES (V2.2 to V2.4) -/

theorem test_irqsel_order :
    (after (present (.irqsel 0xAAA#64) (vec r0))).map (·.2) = some { resValid := true, resCode := 11#8 } ∧
    (after (present (.irqsel 0x22A#64) (vec r0))).map (·.2) = some { resValid := true, resCode := 3#8 } ∧
    (after (present (.irqsel 0x220#64) (vec r0))).map (·.2) = some { resValid := true, resCode := 9#8 } ∧
    (after (present (.irqsel 0x22#64) (vec r0))).map (·.2) = some { resValid := true, resCode := 1#8 } := by decide

theorem test_irqsel_ignores_other_bits :
    (after (present (.irqsel 0xFFFFF555#64) (vec r0))).map (·.2) = some {} := by decide

/-- V2.3 rows 11 (machine-owned STI wins over delegated SEI) and 16 (a `mideleg` bit at MTI). -/
theorem test_irqres_ownership :
    (after (present (.irqres 0b00#2) (vec { r0 with mip := 0x220#64, mie := 0x220#64, mideleg := 0x200#64 }))).map (·.2) =
      some { resValid := true, resCode := 5#8, resPriv := 0b11#2 } ∧
    (after (present (.irqres 0b00#2) (vec { r0 with mip := 0x80#64, mie := 0x80#64, mideleg := 0x80#64 }))).map (·.2) =
      some { resValid := true, resCode := 7#8, resPriv := 0b01#2 } := by decide

/-- V2.3 rows 6 (SIE = 0 at S) and 10 (MIE = 0 at M). -/
theorem test_irqres_gates :
    (after (present (.irqres 0b01#2) (vec { r0 with
      mip := 0x222#64, mie := 0x222#64, mideleg := 0x222#64,
      mstatus := { m0 with mie := true } }))).map (·.2) = some {} ∧
    (after (present (.irqres 0b11#2) (vec { r0 with
      mip := 0x222#64, mie := 0x222#64,
      mstatus := { m0 with sie := true } }))).map (·.2) = some {} := by decide

theorem test_excres_delegated :
    (after (present (.excres 8#8 0b00#2) (vec { r0 with medeleg := 0x100#64 }))).map (·.2.resPriv) = some 0b01#2 ∧
    (after (present (.excres 8#8 0b11#2) (vec { r0 with medeleg := 0x100#64 }))).map (·.2.resPriv) = some 0b11#2 ∧
    (after (present (.excres 31#8 0b01#2) (vec { r0 with medeleg := 0xFFFFFFFF#64 }))).map (·.2.resPriv) = some 0b01#2 ∧
    (after (present (.excres 32#8 0b01#2) (vec { r0 with medeleg := 0xFFFFFFFF#64 }))).map (·.2.resPriv) = some 0b11#2 := by
  decide

theorem test_excres_noS :
    (after (present (.excres 8#8 0b00#2) (vecNoS { r0 with medeleg := 0xFFFFFFFF#64 }))).map (·.2.resPriv) =
      some 0b11#2 := by decide

/-! ## TRAPENT (V2.5) -/

/-- T3: vectored interrupt to Machine from Supervisor. -/
theorem test_trapent_T3 :
    after (present (.trapent 0b11#2 true 7#8 0x2004#64 none none)
      (vec { r0 with
        curPrivilege := .supervisor, mtvec := 0x80000101#64,
        mstatus := { m0 with mie := true, sie := true, spp := true } })) =
    some ({ r0 with
        curPrivilege := .machine, mtvec := 0x80000101#64, mcause := { intr := true, code := 7#63 },
        mepc := 0x2004#64, mstatus := { m0 with mpie := true, mpp := 0b01#2, sie := true, spp := true } },
      {
        nextPcValid := true, nextPc := 0x8000011C#64, cancelReservation := true, extHookValid := true,
        extHookPriv := 0b11#2, extHookPc := 0x2004#64 }) := by decide

/-- T6: Supervisor target, payload 0xAB, exception in vectored mode. -/
theorem test_trapent_T6 :
    after (present (.trapent 0b01#2 false 13#8 0x2040#64 (some 0x7FFF0008#64) (some 0xAB))
      (vec { r0 with curPrivilege := .supervisor, stvec := 0x2001#64, mstatus := { m0 with spie := true } })) =
    some ({ r0 with
        curPrivilege := .supervisor, stvec := 0x2001#64, scause := { intr := false, code := 0xD#63 },
        sepc := 0x2040#64, stval := 0x7FFF0008#64, mstatus := { m0 with spp := true } },
      {
        nextPcValid := true, nextPc := 0x2000#64, cancelReservation := true, extHookValid := true,
        extHookPriv := 0b01#2, extHookPc := 0x2040#64, extHookPayloadValid := true, extHookPayload := 0xAB }) := by decide

/-! ## MRET, SRET (R113, R115: the worked examples) -/

theorem test_mret_to_user :
    after (present .mret (vec { r0 with mepc := 0x1000#64, mstatus := { m0 with mpie := true, mprv := true } })) =
    some ({ r0 with curPrivilege := .user, mepc := 0x1000#64, mstatus := { m0 with mie := true, mpie := true } },
      { nextPcValid := true, nextPc := 0x1000#64, cancelReservation := true }) := by decide

theorem test_mret_invalid_mpp :
    faultOf (present .mret (vec { r0 with mstatus := { m0 with mpp := 0b10#2 } })) = some .privInvalid := by decide

theorem test_sret_to_user :
    after (present .sret (vec { r0 with
      curPrivilege := .supervisor, sepc := 0x400#64,
      mstatus := { m0 with spie := true } })) =
    some ({ r0 with curPrivilege := .user, sepc := 0x400#64, mstatus := { m0 with sie := true, spie := true } },
      { nextPcValid := true, nextPc := 0x400#64, cancelReservation := true }) := by decide

theorem test_sret_noS : faultOf (present .sret (vecNoS r0)) = some .sretNoS := by decide

/-! ## EXCTAKE, IRQTAKE (R108, R109: the worked examples; I8, I9) -/

theorem test_exctake_delegated :
    after (present (.exctake 8#8 0x400#64 none none)
      (vec { r0 with
        curPrivilege := .user, medeleg := 0x100#64, stvec := 0x2000#64,
        mstatus := { m0 with sie := true } })) =
    some ({ r0 with
        curPrivilege := .supervisor, medeleg := 0x100#64, stvec := 0x2000#64,
        scause := { intr := false, code := 8#63 }, sepc := 0x400#64, mstatus := { m0 with spie := true } },
      {
        resPriv := 0b01#2, nextPcValid := true, nextPc := 0x2000#64, cancelReservation := true, extHookValid := true,
        extHookPriv := 0b01#2, extHookPc := 0x400#64 }) := by decide

theorem test_irqtake_timer :
    after (present (.irqtake 0x800#64)
      (vec { r0 with mip := 0x80#64, mie := 0x80#64, mtvec := 0x80000101#64, mstatus := { m0 with mie := true } })) =
    some ({ r0 with
        mip := 0x80#64, mie := 0x80#64, mtvec := 0x80000101#64, mcause := { intr := true, code := 7#63 },
        mepc := 0x800#64, mstatus := { m0 with mpie := true, mpp := 0b11#2 } },
      {
        resValid := true, resCode := 7#8, resPriv := 0b11#2, nextPcValid := true, nextPc := 0x8000011C#64,
        cancelReservation := true, extHookValid := true, extHookPriv := 0b11#2, extHookPc := 0x800#64 }) := by decide

theorem test_irqtake_mode :
    faultOf (present (.irqtake 0x800#64) (vec { r0 with
      mip := 0x800#64, mie := 0x800#64, mtvec := 0x103#64,
      mstatus := { m0 with mie := true } })) = some .tvecMode ∧
    (after (present (.irqtake 0x800#64) (vec { r0 with mip := 0x800#64, mie := 0x800#64, mtvec := 0x103#64 }))).map (·.2) =
      some {} := by decide

/-- The vectored address wraps (R105's example). -/
theorem test_tvec_wraps : tvecAddr Config.vectors 0xFFFFFFF1#64 true 11#8 = 0x1C#64 := by decide

/-! ## Refused commands (V2.10) -/

theorem test_reserved_refused :
    refusalOf (present .reserved9 (vec r0)) = some (.reservedCommand 9#4) ∧
    refusalOf (present .reservedF (vec r0)) = some (.reservedCommand 15#4) ∧
    (resultPorts (present .reservedC (vec r0))).cmdErr = true := by decide

/-- P5, command 4: after a Fatal outcome everything is Refused. -/
theorem test_refused_after_fatal :
    resultPorts (present .mret { vec r0 with latch := { fatal := true, code := 3#4 } }) =
      { cmdErr := true, fatal := true, fatalCode := 3#4 } := by decide

/-! ## The caller's side (R74, R153, R154, R155) -/

theorem test_rvMret_checks_privilege :
    (after (present (.rvMret { pc := 0x10#64 }) (vec { r0 with curPrivilege := .user, mtvec := 0x100#64 }))).map
      (fun x => (x.1.curPrivilege, x.1.mcause.code, x.1.mepc, x.2.nextPc)) = some (.machine, 2#63, 0x10#64, 0x100#64) ∧
    (after (present (.rvMret {}) (vec { r0 with mepc := 0x20#64 }))).map (fun x => (x.1.curPrivilege, x.2.nextPc)) =
      some (.user, 0x20#64) := by decide

theorem test_rvSret_checks_privilege :
    (after (present (.rvSret {}) (vec { r0 with curPrivilege := .user }))).map (·.1.mcause.code) = some 2#63 ∧
    (after (present (.rvSret {}) (vec { r0 with sepc := 0x30#64 }))).map (·.2.nextPc) = some 0x30#64 := by decide

/-- CSRRS and CSRRSI do not write with a zero source field: a counter, which is read-only by address, can be read. -/
theorem test_rvCsr_direction :
    (after (present (.rvCsrrs 0xC00#12 0#5 1#5 {}) (vec r0))).map (·.2.allowed) = some true ∧
    (after (present (.rvCsrrs 0xC00#12 2#5 1#5 {}) (vec r0))).map (·.2.allowed) = some false ∧
    (after (present (.rvCsrrc 0xC00#12 0#5 1#5 {}) (vec r0))).map (·.2.allowed) = some true ∧
    (after (present (.rvCsrrsi 0xC00#12 0#5 1#5 {}) (vec r0))).map (·.2.allowed) = some true ∧
    (after (present (.rvCsrrci 0xC00#12 3#5 1#5 {}) (vec r0))).map (·.2.allowed) = some false ∧
    (after (present (.rvCsrrw 0xC00#12 0#5 1#5 {}) (vec r0))).map (·.2.allowed) = some false ∧
    (after (present (.rvCsrrwi 0x300#12 0#5 1#5 {}) (vec r0))).map (·.2.allowed) = some true := by decide

/-- A table word runs as the first instruction after reset. -/
theorem test_withFetchWord :
    (after (step (State.reset.withFetchWord 8 0b0101))).map (fun x => (x.1.curPrivilege, x.2.nextPcValid)) =
      some (.user, true) ∧
    (after (step (State.reset.withFetchWord 32 0x30001073))).map (·.2.allowed) = some true := by decide

/-- R131: a hart step drops the instruction when an interrupt is taken; otherwise the next step executes it. -/
theorem test_hartStep :
    (match step { vec { r0 with mip := 0x80#64, mie := 0x80#64, mtvec := 0x100#64, mstatus := { m0 with mie := true } } with
        inputs := [.hartStep (.word 0x30200073#32 { pc := 0x800#64 })] } with
      | .next t => some (t.inputs, t.rf.mepc, t.out.nextPc)
      | _ => none) = some ([], 0x800#64, 0x100#64) ∧
    (match step { vec r0 with inputs := [.hartStep (.word 0x30200073#32 {})] } with
      | .next t => (after (step t)).map (·.1.curPrivilege)
      | _ => none) = some .user := by decide

/-! ## Other agents -/

/-- A whole write of mstatus lands on the named fields, bit 2 on none of them (R19). -/
theorem test_writer_mstatus :
    (after (step { vec r0 with inputs := [.writer (.mstatus 0x10188C#64)] })).map (·.1.mstatus) =
      some { m0 with mie := true, mpie := true, mpp := 0b11#2, tvm := true, other := 0x4#64 } := by decide

theorem test_writer_mcause :
    (after (step { vec r0 with inputs := [.writer (.mcause 0x80000007#64)] })).map (·.1.mcause) =
      some { intr := true, code := 7#63 } := by decide

/-! ## Witnesses: states and operands that meet the hypotheses of the statements -/

/-- Machine, MRET to Machine possible, both vectors set. -/
abbrev sM : State := vec { r0 with
  mtvec := 0x80000101#64, stvec := 0x2001#64, medeleg := 0x80000100#64, mepc := 0x1004#64,
  sepc := 0x2004#64, mip := 0x88#64, mie := 0x88#64, mstatus := { m0 with mie := true, mpp := 0b11#2, mprv := true } }
/-- The same at User, with a delegated interrupt pending. -/
abbrev sU : State := vec { sM.rf with curPrivilege := .user, mip := 0x202#64, mie := 0x202#64, mideleg := 0x202#64 }
/-- The same at Supervisor. -/
abbrev sS : State := vec { sU.rf with curPrivilege := .supervisor, mstatus := { m0 with sie := true } }
/-- Reserved MODE in both vectors. -/
abbrev sBad : State := vec { sU.rf with mtvec := 0x102#64, stvec := 0x103#64 }

theorem witness_StepRunsDecodedInput :
    decode (encode (.irqtake 4#64)) = .ok (.irqtake 4#64) ∧ decodeInsn 0x30200073#32 {} = some (.rvMret {}) ∧
    ({ sM with inputs := [bareCommand 0xF#4] } : State).inputs = bareCommand 0xF#4 :: [] := by decide
theorem witness_CycleWithoutCommandDoesNothing :
    sM.inputs = [] ∧ ({ sM with inputs := [.cycle { cmd := 5#4 }, .cycle {}] } : State).inputs =
      .cycle { cmd := 5#4 } :: [.cycle {}] := by decide
theorem witness_ReservedCodesAreNineToFifteen :
    sM.Live ∧ 9 ≤ ({ cmd := 0x9#4 } : Ports).cmd.toNat ∧ 9 ≤ ({ cmd := 0xF#4 } : Ports).cmd.toNat ∧
    ¬9 ≤ ({ cmd := 0x8#4 } : Ports).cmd.toNat := by decide
theorem witness_ResetCycleRecreatesRegisterFile :
    ({ sM with inputs := [.cycle { rst := true, cmdValid := true }] } : State).inputs =
      .cycle { rst := true, cmdValid := true } :: [] := by decide
theorem witness_NothingIsTakenOrDelegatedAfterReset :
    ∃ t, step { sM with inputs := [.cycle { rst := true }] } = .next t := ⟨_, rfl⟩
theorem witness_CsrchkAnswersSixChecks : sM.Live ∧ ({ cmd := 0#4 } : Ports).cmd = 0x0#4 := by decide
theorem witness_SatpIsClosedToSupervisorUnderTvm : sM.Live ∧ sM.cfg.Decided := by decide
theorem witness_CounterReadsFollowEnableMasks : sM.Live ∧ sM.cfg.Decided ∧ 0 < 32 ∧ 31 < 32 := by decide
theorem witness_TimeCompareNeedsBothGates :
    sM.Live ∧ sM.cfg.Decided ∧ (0x14D#12 = 0x14D#12 ∨ 0x14D#12 = 0x15D#12) ∧
    (0x15D#12 = 0x14D#12 ∨ 0x15D#12 = 0x15D#12) := by decide
theorem witness_EntropySourceTakesMachineWritesOnly : sS.Live ∧ sS.cfg.Decided := by decide
/-- Two states that differ in everything CSRCHK does not look at. -/
theorem witness_CsrchkSeesOnlyItsInputs :
    sM.Live ∧ sU.Live ∧ sM.cfg = sU.cfg ∧ sM.rf.mstatus.tvm = sU.rf.mstatus.tvm ∧ sM.rf.mcounteren = sU.rf.mcounteren ∧
    sM.rf.scounteren = sU.rf.scounteren ∧ sM.rf.stce = sU.rf.stce ∧ sM.rf ≠ sU.rf ∧
    (after (exec (.csrchk 0x180#12 0b01#2 true) sM)).isSome = true := by decide
theorem witness_IrqselGivesFirstInOrder :
    sM.Live ∧ sM.cfg.irqBits = 0xAAA#64 ∧ ({ cmd := 1#4 } : Ports).cmd = 0x1#4 := by decide
theorem witness_IrqresGivesFirstVisible :
    sU.Live ∧ sU.cfg.irqBits = 0xAAA#64 ∧ firstInterrupt sU .user = some (9, .supervisor) ∧
    firstInterrupt sU .machine = none ∧ firstInterrupt sM .machine = some (3, .machine) := by decide
/-- The last code with a delegation bit, and the first without. -/
theorem witness_ExcresGivesDelegatedTarget :
    sU.Live ∧ (sU.cfg.haveS = true ∧ (31#8).toNat < sU.cfg.xlen.bits ∧ sU.rf.medeleg.getLsbD (31#8).toNat = true) ∧
    ¬(32#8).toNat < sU.cfg.xlen.bits := by decide
theorem witness_IrqresTargetsAreSound :
    (∃ t, exec (.irqres (privCode .user)) sU = .next t ∧ t.out.resValid = true ∧ t.out.resPriv = 0b01#2) ∧
    (∃ t, exec (.irqres (privCode .user)) (vecNoS sU.rf) = .next t ∧ t.out.resValid = true) :=
  ⟨⟨_, rfl, rfl, rfl⟩, ⟨_, rfl, rfl⟩⟩
theorem witness_PureOperationsWriteNothing :
    (∃ t, exec (.csrchk 0x300#12 0b11#2 true) sM = .next t) ∧ (∃ t, exec (.irqsel 8#64) sM = .next t) ∧
    (∃ t, exec (.irqres 0b11#2) sM = .next t) ∧ (∃ t, exec (.excres 8#8 0b00#2) sM = .next t) :=
  ⟨⟨_, rfl⟩, ⟨_, rfl⟩, ⟨_, rfl⟩, ⟨_, rfl⟩⟩
theorem witness_TrapentCommitsToMachine : sU.Live ∧ sU.rf.mtvec.getLsbD 1 = false := by decide
theorem witness_TrapentCommitsToSupervisor :
    sU.Live ∧ sU.cfg.haveS = true ∧ sU.rf.curPrivilege ≠ .machine ∧ sU.rf.stvec.getLsbD 1 = false := by decide
theorem witness_TrapentFatalChecksInOrder :
    sBad.Live ∧ (vecNoS sBad.rf).cfg.haveS = false ∧ (sM.cfg.haveS = true ∧ sM.rf.curPrivilege = .machine) ∧
    (sBad.cfg.haveS = true ∧ sBad.rf.curPrivilege ≠ .machine ∧ sBad.rf.stvec.getLsbD 1 = true) ∧
    sBad.rf.mtvec.getLsbD 1 = true ∧
    faultOf (exec (.trapent 0b11#2 true 7#8 0#64 none none) sBad) = some .tvecMode := by decide
theorem witness_EntryNeverLowersPrivilege :
    (∃ t, exec (.trapent 0b01#2 false 8#8 0#64 none none) sU = .next t ∧ t.out.extHookValid = true) ∧
    (∃ t, exec (.exctake 2#8 0#64 none none) sU = .next t) ∧ (∃ t, exec (.irqtake 0#64) sS = .next t) :=
  ⟨⟨_, rfl, rfl⟩, ⟨_, rfl⟩, ⟨_, rfl⟩⟩
theorem witness_ExctakeChainsResolverAndEntry :
    sBad.Live ∧ faultOf (exec (.exctake 8#8 0#64 none none) sBad) = some .tvecMode ∧
    ({ cmd := 7#4 } : Ports).cmd = 0x7#4 := by decide
/-- All four clauses: delegated or not, MODE reserved or not. -/
theorem witness_ExctakeEntersAtResolvedTarget :
    sU.Live ∧ sBad.Live ∧
    (sU.cfg.haveS = true ∧ (31#8).toNat < sU.cfg.xlen.bits ∧ sU.rf.medeleg.getLsbD (31#8).toNat = true ∧
      sU.rf.curPrivilege ≠ .machine) ∧ sU.rf.stvec.getLsbD 1 = false ∧ sBad.rf.stvec.getLsbD 1 = true ∧
    ¬(sU.cfg.haveS = true ∧ (32#8).toNat < sU.cfg.xlen.bits ∧ sU.rf.medeleg.getLsbD (32#8).toNat = true ∧
      sU.rf.curPrivilege ≠ .machine) ∧ sU.rf.mtvec.getLsbD 1 = false ∧ sBad.rf.mtvec.getLsbD 1 = true := by decide
theorem witness_IrqtakeTakesTheSelectedInterrupt :
    sM.Live ∧ sM.cfg.irqBits = 0xAAA#64 ∧ firstInterrupt sM sM.rf.curPrivilege = some (3, .machine) ∧
    firstInterrupt sS sS.rf.curPrivilege = some (9, .supervisor) ∧
    firstInterrupt (vec r0) (vec r0).rf.curPrivilege = none ∧
    faultOf (exec (.irqtake 0#64) sBad) = some .tvecMode := by decide
theorem witness_IrqtakeCompletes :
    sM.Live ∧ sM.cfg.irqBits = 0xAAA#64 ∧ sM.rf.mtvec.getLsbD 1 = false ∧ sM.rf.stvec.getLsbD 1 = false ∧
    firstInterrupt sM sM.rf.curPrivilege = some (3, .machine) ∧ sS.rf.stvec.getLsbD 1 = false ∧
    firstInterrupt sS sS.rf.curPrivilege = some (9, .supervisor) := by decide
theorem witness_CompositesStopOnlyOnReservedMode :
    sBad.Live ∧ faultOf (exec (.exctake 2#8 0#64 none none) sBad) = some .tvecMode ∧
    faultOf (exec (.irqtake 0#64) sBad) = some .tvecMode := by decide
theorem witness_NestedMachineTrapOverwrites :
    ∃ t u, exec (.trapent 0b11#2 true 7#8 4#64 (some 9#64) none) sU = .next t ∧
      exec (.trapent 0b11#2 false 2#8 8#64 none none) t = .next u := ⟨_, _, rfl, rfl⟩
theorem witness_MretReturns :
    sM.Live ∧ sM.rf.mstatus.mpp = privCode .machine ∧
    (vec { r0 with mstatus := { m0 with mpp := 0b10#2 } }).rf.mstatus.mpp = 0b10#2 ∧
    ({ cmd := 5#4 } : Ports).cmd = 0x5#4 := by decide
theorem witness_SretReturns :
    sS.Live ∧ sS.cfg.haveS = true ∧ (vecNoS r0).Live ∧ (vecNoS r0).cfg.haveS = false ∧
    ({ cmd := 6#4 } : Ports).cmd = 0x6#4 := by decide
theorem witness_ReturnAddressKeepsUpperBits :
    sM.cfg.Legal ∧ (after (exec .mret sM)).isSome = true ∧ (after (exec .sret sS)).isSome = true ∧ 2 ≤ 2 ∧ 2 ≤ 63 := by
  decide
theorem witness_MachineTrapRoundTrip :
    (∃ t, exec (.trapent 0b11#2 false 2#8 0x2010#64 none none) sS = .next t) ∧ sS.cfg.Legal ∧
    sS.rf.curPrivilege ≠ .machine ∧ fit sS.cfg 0x2010#64 = 0x2010#64 ∧ (0x2010#64).getLsbD 0 = false ∧
    (0x2010#64).getLsbD 1 = false := ⟨⟨_, rfl⟩, by decide⟩
theorem witness_SupervisorTrapRoundTrip :
    (∃ t, exec (.trapent 0b01#2 false 8#8 0x400#64 none none) sU = .next t) ∧ sU.cfg.Legal ∧
    fit sU.cfg 0x400#64 = 0x400#64 ∧ (0x400#64).getLsbD 0 = false ∧ (0x400#64).getLsbD 1 = false :=
  ⟨⟨_, rfl⟩, by decide⟩
theorem witness_MprvClearAfterReturnBelowMachine :
    (∃ t, exec .sret sM = .next t ∧ t.rf.curPrivilege ≠ .machine) ∧
    (∃ t, exec .mret (vec r0) = .next t ∧ t.rf.curPrivilege ≠ .machine ∧ (vec r0).rf.mstatus.mprv = false) :=
  ⟨⟨_, rfl, by decide⟩, ⟨_, rfl, by decide, rfl⟩⟩
theorem witness_NoInstructionWritesGatesOrMasks : ∃ t, exec (.rvCsrrw 0x305#12 1#5 0#5 {}) sM = .next t := ⟨_, rfl⟩
theorem witness_LevelsUseDisjointFields :
    (∃ t, exec (.exctake 2#8 0#64 none none) sS = .next t ∧ t.rf.curPrivilege = .machine) ∧
    (∃ t, exec .mret sM = .next t) ∧ (∃ t, exec .sret sS = .next t) ∧
    (∃ t, exec (.irqtake 0#64) sS = .next t ∧ t.out.extHookValid = true ∧ t.rf.curPrivilege = .supervisor) :=
  ⟨⟨_, rfl, rfl⟩, ⟨_, rfl⟩, ⟨_, rfl⟩, ⟨_, rfl, rfl, rfl⟩⟩
theorem witness_CancelAndHookExactlyOnCommit :
    (∃ t, exec (.trapent 0b11#2 false 2#8 0#64 none none) sU = .next t) ∧
    (∃ t, exec (.exctake 2#8 0#64 none none) sU = .next t) ∧ (∃ t, exec (.irqtake 0#64) sU = .next t) ∧
    (∃ t, exec .mret sM = .next t) ∧ (∃ t, exec (.irqsel 0#64) sM = .next t) ∧
    (∃ t, exec (.rvMret {}) sM = .next t ∧ sM.rf.curPrivilege = .machine) ∧
    (∃ t, exec (.rvMret {}) sU = .next t ∧ t.out.extHookValid = true) ∧ (∃ t, exec (.rvSret {}) sS = .next t) ∧
    (∃ t, exec (.rvCsrrw 0x300#12 0#5 0#5 {}) sM = .next t) :=
  ⟨⟨_, rfl⟩, ⟨_, rfl⟩, ⟨_, rfl⟩, ⟨_, rfl⟩, ⟨_, rfl⟩, ⟨_, rfl, rfl⟩, ⟨_, rfl, rfl⟩, ⟨_, rfl⟩, ⟨_, rfl⟩⟩
theorem witness_StoppedCommandsDriveOnlyErrors :
    faultOf (exec .sret (vecNoS r0)) = some .sretNoS ∧ refusalOf (exec .reserved9 sM) = some (.reservedCommand 9#4) ∧
    refusalOf (exec .mret { sM with latch := { fatal := true, code := 6#4 } }) = some (.afterFatal 6#4) := by decide
theorem witness_NothingRunsAfterFatal :
    ({ sM with latch := { fatal := true, code := 3#4 } } : State).latch.fatal = true ∧
    (∃ t, step { sM with latch := { fatal := true, code := 3#4 } } = .next t) ∧
    (∃ t, step { sM with latch := { fatal := true, code := 3#4 }, inputs := [.cycle { rst := true }] } = .next t) :=
  ⟨rfl, ⟨_, rfl⟩, ⟨_, rfl⟩⟩
theorem witness_ReservedCommandsAreRefused :
    sM.Live ∧ 9 ≤ ({ cmd := 0x9#4 } : Ports).cmd.toNat ∧ 9 ≤ ({ cmd := 0xF#4 } : Ports).cmd.toNat := by decide
theorem witness_PrivilegeRisesOnlyByTrapEntry :
    ∃ t, exec (.exctake 8#8 0#64 none none) sU = .next t ∧
      (privCode sU.rf.curPrivilege).toNat < (privCode t.rf.curPrivilege).toNat := ⟨_, rfl, by decide⟩
theorem witness_NoSupervisorTrapWithoutSupervisor :
    (vecNoS sU.rf).cfg.haveS = false ∧ ∃ t, exec (.exctake 8#8 0#64 none none) (vecNoS sU.rf) = .next t := ⟨rfl, ⟨_, rfl⟩⟩
theorem witness_UnclearedInterruptIsSelectedAgain :
    ∃ t u, exec (.irqtake 0x80#64) sM = .next t ∧ t.out.resPriv = 0b11#2 ∧ exec .mret t = .next u :=
  ⟨_, _, rfl, rfl, rfl⟩
theorem witness_InstructionsKeepConfiguredLevel :
    sM.cfg.Legal ∧ sM.AtConfiguredLevel ∧ ∃ t, exec .sret sM = .next t := ⟨by decide, by decide, ⟨_, rfl⟩⟩
theorem witness_CallerReturnsAreChecked :
    sM.Live ∧ sM.rf.curPrivilege = .machine ∧ sM.rf.mstatus.mpp ≠ 0b10#2 ∧ sU.rf.curPrivilege ≠ .machine ∧
    (sS.cfg.haveS = true ∧ sS.rf.curPrivilege ≠ .user) ∧ (vecNoS r0).cfg.haveS = false ∧ sU.rf.curPrivilege = .user := by
  decide
/-- A denied access, and a granted write. -/
theorem witness_CallerCsrInstructionsPresentCheck :
    sU.Live ∧ (resultPorts (exec (.rvCsrrw 0x300#12 1#5 1#5 {}) sU)).allowed = false ∧
    (resultPorts (exec (.rvCsrrsi 0x300#12 1#5 1#5 {}) sM)).allowed = true ∧ ({} : Caller).csrDefined = true := by decide
theorem witness_CsrrwTrapsOrWritesInTheNextStep :
    (∃ t, step { sU with inputs := [.insn (0x300#12 ++ 1#5 ++ 0b001#3 ++ 2#5 ++ 0b1110011#7) {}] } = .next t ∧
      t.out.allowed = false) ∧
    (∃ t, step { sM with inputs := [.insn (0x300#12 ++ 1#5 ++ 0b001#3 ++ 2#5 ++ 0b1110011#7)
      { writes := [.stce true] }] } = .next t ∧ t.out.allowed = true) := ⟨⟨_, rfl, rfl⟩, ⟨_, rfl, rfl⟩⟩
/-- A hart step that takes an interrupt, and the four kinds of instruction where there is none. -/
theorem witness_HartStepAsksForAnInterruptFirst :
    sM.Live ∧ sM.cfg.irqBits = 0xAAA#64 ∧ firstInterrupt sM sM.rf.curPrivilege ≠ none ∧
    firstInterrupt (vec r0) (vec r0).rf.curPrivilege = none ∧
    ({ vec r0 with inputs := [.hartStep (.quiet 0#64)] } : State).inputs = .hartStep (.quiet 0#64) :: [] ∧
    decodeInsn 0x10200073#32 {} = some (.rvSret {}) ∧ decodeInsn 0x13#32 {} = none := by decide
/-- An interrupt and an exception resolved, and the entry presented after a writer changed the vector. -/
theorem witness_TwoCommandFormIsTheComposite :
    (∃ u, exec (.irqres (privCode sS.rf.curPrivilege)) sS = .next u ∧ u.out.resValid = true) ∧
    (∃ u, exec (.excres 8#8 (privCode sS.rf.curPrivilege)) sS = .next u ∧ u.out.resPriv = 0b01#2) ∧
    (let v := { sS with rf := { sS.rf with stvec := 0x3000#64 } }
     sS.Live ∧ v.Live ∧ v.cfg = sS.cfg ∧ v.rf.curPrivilege = sS.rf.curPrivilege ∧ v.rf.mip = sS.rf.mip ∧
     v.rf.mie = sS.rf.mie ∧ v.rf.mideleg = sS.rf.mideleg ∧ v.rf.mstatus.mie = sS.rf.mstatus.mie ∧
     v.rf.mstatus.sie = sS.rf.mstatus.sie ∧ v.rf.medeleg = sS.rf.medeleg) ∧
    faultOf (exec (.trapent 0b01#2 false 8#8 0#64 none none) { sS with rf := { sS.rf with stvec := 2#64 } }) =
      some .tvecMode :=
  ⟨⟨_, rfl, rfl⟩, ⟨_, rfl, rfl⟩, by decide, by decide⟩
theorem witness_WritersNeverTouchPrivilegeOrLatch :
    ({ sM with inputs := [.writer (.reg .mip 0x800#64)] } : State).inputs = .writer (.reg .mip 0x800#64) :: [] := by decide
theorem witness_StepKeepsInvariant :
    ({ sM with inputs := [.writer (.mpp 0b01#2), bareCommand 0x5#4] } : State).Inv ∧
    ∃ t, step { sM with inputs := [.writer (.mpp 0b01#2), bareCommand 0x5#4] } = .next t := ⟨by decide, ⟨_, rfl⟩⟩
/-- Whole hart steps, another agent's write and a reset, all from careful agents; and each command that only the state
allows, presented where it may be. -/
theorem witness_CarefulCallersNeverStop :
    ({ sM with inputs := [.hartStep (.word 0x30501073#32 { writes := [.reg .mtvec 0x101#64] }),
      .hartStep (.word 0x30200073#32 {}), .hartStep (.raises 2#8 0#64 none none), .hartStep (.quiet 4#64),
      .writer (.reg .stvec 0x200#64), .cycle { rst := true }] } : State).Careful ∧
    ({ vec r0 with inputs := [encode .mret, .hartStep (.quiet 0#64)] } : State).Careful ∧
    ({ vec r0 with inputs := [encode .sret] } : State).Careful ∧
    ({ sM with inputs := [encode (.trapent 0b11#2 true 3#8 8#64 none none)] } : State).Careful ∧
    ({ vec { sS.rf with mip := 0#64 } with inputs := [encode (.trapent 0b01#2 false 8#8 8#64 none none)] } : State).Careful ∧
    ({ vec r0 with inputs := [.insn 0x30501073#32 { writes := [.reg .mtvec 0x101#64] }] } : State).Careful := by decide

/-- A careful state whose first input is a whole hart step. -/
theorem witness_StepKeepsCareful :
    ({ sM with inputs := [.hartStep (.word 0x30501073#32 { writes := [.reg .mtvec 0x101#64] }),
      .writer (.reg .stvec 0x200#64)] } : State).Careful := by decide

/-- Callers that are not careful: an MRET with an interrupt waiting, an MRET below Machine, a stale target. -/
theorem test_careless :
    inputsChecked { sM with inputs := [encode .mret] } = false ∧
    inputsChecked { vec { r0 with curPrivilege := .user } with inputs := [encode .mret] } = false ∧
    inputsChecked { vec { sS.rf with mip := 0#64, curPrivilege := .machine } with
      inputs := [encode (.trapent 0b01#2 false 8#8 8#64 none none)] } = false := by decide

end Sys2Proof.Tests
end

section
/-! What one step can do, said once, and the invariant it keeps (R6, R20, R25, R41). -/

namespace Sys2Proof.Machine

variable {s t : State} {e : Input} {i : Instr}

/-! ## Where a decoded instruction comes from -/

/-- A command of the port carries nothing of the caller's (R62). -/
theorem callerOf_decodePorts (p : Ports) : callerOf (decodePorts p) = none := by
  unfold decodePorts; split <;> rfl

/-- An instruction word of R74 hands on exactly what its caller has in hand. -/
theorem callerOf_decodeInsn {w : BitVec 32} {ctx : Caller} (h : decodeInsn w ctx = some i) :
    callerOf i = some ctx := by
  unfold decodeInsn at h
  split at h
  · cases h; rfl
  split at h
  · cases h; rfl
  split at h
  · split at h <;> cases h <;> rfl
  · cases h

/-- A clock cycle is a reset cycle, an idle cycle or a command (R60, R147). -/
theorem decode_cycle (p : Ports) :
    decode (.cycle p) = .error .resetCycle ∨ decode (.cycle p) = .error .idleCycle ∨
      decode (.cycle p) = .ok (decodePorts p) := by
  cases hr : p.rst <;> cases hv : p.cmdValid <;> simp [decode, hr, hv]

/-- An instruction word is one of the eight of R74, or it is outside the block. -/
theorem decode_insn (w : BitVec 32) (ctx : Caller) :
    (∃ i, decodeInsn w ctx = some i ∧ decode (.insn w ctx) = .ok i) ∨
      decode (.insn w ctx) = .error (.outsideWord w) := by
  cases h : decodeInsn w ctx <;> simp [decode, h]

/-! ## Everything a step can do -/

/-- A step that answers a next state: nothing was presented, or the first input was a command or instruction word, a reset
cycle, an idle cycle, another agent's write, or a whole instruction step (R50, R60, R147). -/
theorem step_next (h : step s = .next t) :
    (s.inputs = [] ∧ t = idleCycle s) ∨
    ∃ e rest, s.inputs = e :: rest ∧
      ((∃ i, decode e = .ok i ∧ exec i (s.withInputs rest) = .next t) ∨
       (decode e = .error .resetCycle ∧ t = resetCycle (s.withInputs rest)) ∨
       (decode e = .error .idleCycle ∧ t = idleCycle (s.withInputs rest)) ∨
       (∃ w, e = .writer w ∧ t = writerCycle w (s.withInputs rest)) ∨
       ∃ a, e = .hartStep a ∧ beginHartStep a (s.withInputs rest) = .next t) := by
  cases hin : s.inputs with
  | nil =>
    simp only [step, hin] at h
    exact .inl ⟨rfl, (Host.Outcome.next.inj h).symm⟩
  | cons e rest =>
    refine .inr ⟨e, rest, rfl, ?_⟩
    cases e with
    | cycle p =>
      obtain hd | hd | hd := decode_cycle p <;> simp only [step, hin, hd] at h
      · exact .inr (.inl ⟨hd, (Host.Outcome.next.inj h).symm⟩)
      · exact .inr (.inr (.inl ⟨hd, (Host.Outcome.next.inj h).symm⟩))
      · exact .inl ⟨_, hd, h⟩
    | insn w ctx =>
      obtain ⟨i, -, hd⟩ | hd := decode_insn w ctx <;> simp only [step, hin, hd] at h
      · exact .inl ⟨i, hd, h⟩
      · cases h
    | writer w =>
      simp only [step, hin, decode] at h
      exact .inr (.inr (.inr (.inl ⟨w, rfl, (Host.Outcome.next.inj h).symm⟩)))
    | hartStep a =>
      simp only [step, hin, decode] at h
      exact .inr (.inr (.inr (.inr ⟨a, rfl, h⟩)))

/-! ## Inputs whose writers keep R41 -/

/-- The caller in hand of a decoded instruction is that of a legal input, so its data path's writes are legal. -/
theorem callerWrites_legal (he : inputLegal e = true) (hd : decode e = .ok i) {ctx : Caller}
    (hx : callerOf i = some ctx) : ctx.writes.all writeLegal = true := by
  cases e with
  | cycle p =>
    obtain hp | hp | hp := decode_cycle p <;> rw [hp] at hd <;> cases hd
    rw [callerOf_decodePorts] at hx
    cases hx
  | insn w ctx' =>
    obtain ⟨j, hj, hw⟩ | hw := decode_insn w ctx' <;> rw [hw] at hd <;> cases hd
    rw [callerOf_decodeInsn hj] at hx
    cases hx
    exact he
  | hartStep a => cases hd
  | writer w => cases hd

/-- What the caller presents after CSRCHK: its data path's own writes, an EXCTAKE, or nothing (R83, R131). -/
theorem afterCheck_legal (c : Config) (a w : Bool) {ctx : Caller} (h : ctx.writes.all writeLegal = true) :
    (afterCheck c a w ctx).all inputLegal = true := by
  unfold afterCheck
  split
  · split
    · rw [List.all_map]; exact h
    · rfl
  · rfl

/-- What an instruction step presents after the interrupt question (R131). -/
theorem followUp_legal {a : HartAct} (h : inputLegal (.hartStep a) = true) :
    (followUp a).all inputLegal = true := by
  cases a with
  | word w ctx => exact (Bool.and_true _).trans h
  | raises code pc info ext => rfl
  | quiet pc => rfl

/-! ## MPP stays a privilege (R20) -/

theorem commitTrap_mpp (c : Config) (l : TrapLevel) (tc : TrapContext) {rf : RegFile}
    (h : rf.mstatus.mpp ≠ 0b10#2) : (commitTrap c l tc rf).mstatus.mpp ≠ 0b10#2 := by
  cases l with
  | machine => exact privCode_ne_invalid rf.curPrivilege
  | supervisor => exact h

theorem leaveMachine_mpp (c : Config) (p : Priv) (m : Mstatus) : (m.leaveMachine c p).mpp ≠ 0b10#2 := by
  show (if c.haveU then privCode .user else privCode .machine) ≠ _
  split <;> exact privCode_ne_invalid _

/-! ## The invariant, update by update -/

theorem State.Inv.withInputs {es : List Input} (h : s.Inv) (hes : es.all inputLegal = true) :
    (s.withInputs es).Inv := by
  obtain ⟨hc, hf, hm, hl, hp, -⟩ := h
  exact ⟨hc, hf, hm, hl, hp, hes⟩

theorem State.Inv.withOut {r : Results} (h : s.Inv) (hr : fit s.cfg r.nextPc = r.nextPc) : (s.withOut r).Inv := by
  obtain ⟨hc, hf, hm, hl, -, hi⟩ := h
  exact ⟨hc, hf, hm, hl, hr, hi⟩

theorem State.Inv.withRf {rf : RegFile} (h : s.Inv) (hf : RegFile.Fits s.cfg rf) (hm : rf.mstatus.mpp ≠ 0b10#2) :
    (s.withRf rf).Inv := by
  obtain ⟨hc, -, -, hl, hp, hi⟩ := h
  exact ⟨hc, hf, hm, hl, hp, hi⟩

/-- A trap return writes the privilege and named fields of mstatus alone, and drives an aligned address (R113, R115, R117). -/
theorem State.Inv.trapReturn {m : Mstatus} (h : s.Inv) (p : Priv) (pc : Word)
    (ho : m.other = s.rf.mstatus.other) (hm : m.mpp ≠ 0b10#2) :
    ((s.withRf { s.rf with mstatus := m, curPrivilege := p }).withOut (returnResults (alignPc s.cfg pc))).Inv := by
  have ⟨_, hf, _⟩ := h
  exact (h.withRf (by simpa only [RegFile.Fits, ho] using hf) hm).withOut (fit_alignPc _ _)

theorem State.Inv.idleCycle (h : s.Inv) : (idleCycle s).Inv := h.withOut (fit_zero _)

theorem State.Inv.writerCycle {w : Write} (h : s.Inv) (hw : writeLegal w = true) : (writerCycle w s).Inv := by
  have ⟨_, hf, hm, _⟩ := h
  exact (h.withRf (applyWrite_fits w hf) (applyWrite_mpp w hw hm)).withOut (fit_zero _)

theorem State.Inv.resetCycle (h : s.Inv) : (resetCycle s).Inv := by
  obtain ⟨hc, -, -, -, -, hi⟩ := h
  exact ⟨hc, resetRf_fits _ _, legalMpp_ne_invalid _, fun _ => rfl, fit_zero _, hi⟩

/-! ## The invariant, instruction by instruction -/

/-- Each of the five shapes of a successful instruction keeps the invariant. -/
theorem State.Inv.of_shape (h : s.Inv) (hx : ∀ ctx, callerOf i = some ctx → ctx.writes.all writeLegal = true)
    (hs : Shape s i t) : t.Inv := by
  have ⟨_, hf, hm, _, _, hi⟩ := h
  cases hs with
  | answered r _ _ _ hp => exact h.withOut (by rw [hp, fit_zero])
  | entered l tc base =>
    exact (h.withRf (commitTrap_fits l tc hf) (commitTrap_mpp _ l tc hm)).withOut (fit_tvecAddr _ _ _ _)
  | mretDone p => exact h.trapReturn p _ rfl (leaveMachine_mpp _ _ _)
  | sretDone => exact h.trapReturn _ _ rfl hm
  | checked a w ctx _ hctx =>
    refine (h.withOut (fit_zero _)).withInputs ?_
    rw [List.all_append, afterCheck_legal _ a w (hx ctx hctx), hi]; rfl

theorem State.Inv.exec (h : s.Inv) (hx : ∀ ctx, callerOf i = some ctx → ctx.writes.all writeLegal = true)
    (he : exec i s = .next t) : t.Inv :=
  h.of_shape hx (exec_next_shape he).2

/-- The interrupt question takes the interrupt, as an IRQTAKE, or leaves the instruction to be presented (R128, R131). -/
theorem State.Inv.beginHartStep {a : HartAct} (h : s.Inv) (ha : inputLegal (.hartStep a) = true)
    (he : beginHartStep a s = .next t) : t.Inv := by
  obtain ⟨-, hk⟩ | ⟨-, -, rfl⟩ := beginHartStep_next he
  · exact h.exec (i := .irqtake a.pc) nofun hk
  · have ⟨_, _, _, _, _, hi⟩ := h
    refine (h.withOut (fit_zero _)).withInputs ?_
    rw [List.all_append, followUp_legal ha, hi]; rfl

/-- Settles O54, by the kinds of input a step can take, each of which keeps the invariant. -/
theorem stepKeepsInvariant : Obligations.StepKeepsInvariant := by
  intro s t h hstep
  obtain ⟨-, rfl⟩ | ⟨e, rest, hin, hcases⟩ := step_next hstep
  · exact h.idleCycle
  have ⟨_, _, _, _, _, hlegal⟩ := h
  rw [hin, List.all_cons, Bool.and_eq_true] at hlegal
  obtain ⟨he, hrest⟩ := hlegal
  have h' : (s.withInputs rest).Inv := h.withInputs hrest
  rcases hcases with ⟨i, hd, hk⟩ | ⟨-, rfl⟩ | ⟨-, rfl⟩ | ⟨w, rfl, rfl⟩ | ⟨a, rfl, hk⟩
  · exact h'.exec (fun _ => callerWrites_legal he hd) hk
  · exact h'.resetCycle
  · exact h'.idleCycle
  · exact h'.writerCycle he
  · exact h'.beginHartStep he hk

end Sys2Proof.Machine
end

section
/-! The state's fields: what a write of another agent changes (R41), the packed layouts (R19, R25), reset (R42), and what every
instruction leaves alone (R18, R21, R37, R44). -/

namespace Sys2Proof.Machine

variable {s : State}

/-! ## Reset (R42) -/

/-- Settles O6, field by field. -/
theorem resetStateHasGivenValues : Obligations.ResetStateHasGivenValues :=
  ⟨rfl, rfl, rfl, rfl, rfl, rfl, rfl, rfl, rfl, rfl, rfl, rfl, rfl, rfl⟩

/-- The vectors' `PC_ALIGN_MASK` has every bit of XLEN = 32 but bit 0 (R8). -/
theorem vectors_legal : Config.vectors.Legal := ⟨fun _ => rfl, by decide⟩

/-- A Register File of zeros lies within its widths. -/
theorem reset_fits (c : Config) : RegFile.Fits c RegFile.reset := by
  refine ⟨fit_zero c, fit_zero c, fit_zero c, fit_zero c, fit_zero c, fit_zero c, fit_zero c, fit_zero c, fit_zero c,
    fit_zero c, BitVec.zero_and, BitVec.zero_and, ?_⟩
  show 0#64 &&& c.xlen.mask &&& ~~~mstatusFieldMask c.xlen = 0#64
  rw [BitVec.zero_and, BitVec.zero_and]

/-- Settles O53: each part of the invariant at the reset values. -/
theorem resetMeetsInvariant : Obligations.ResetMeetsInvariant :=
  ⟨vectors_legal, reset_fits _, privCode_ne_invalid .user, fun _ => rfl, fit_zero _, rfl⟩

/-! ## The packed layouts (R19, R25) -/

/-- A bit put back at the position it was read from. -/
theorem bitAt_getLsbD (v : Word) {pos : Nat} (h : pos < 64) : bitAt pos (v.getLsbD pos) = v &&& bitAt pos true := by
  apply BitVec.eq_of_getLsbD_eq
  intro i _
  rw [BitVec.getLsbD_and, getLsbD_bitAt _ h, getLsbD_bitAt _ h]
  by_cases hi : i = pos <;> simp [hi]

/-- A two-bit field put back at the position it was read from. -/
theorem pairAt_extractLsb' (v : Word) {pos : Nat} (h : pos < 62) :
    pairAt pos (v.extractLsb' pos 2) = v &&& pairAt pos (BitVec.allOnes 2) := by
  apply BitVec.eq_of_getLsbD_eq
  intro i _
  rw [BitVec.getLsbD_and, getLsbD_pairAt _ h, getLsbD_pairAt _ h, BitVec.getLsbD_extractLsb', BitVec.getLsbD_allOnes]
  by_cases hi : pos ≤ i
  · rw [Nat.add_sub_cancel' hi]
    simp only [hi, decide_true, Bool.true_and, Bool.and_comm]
  · simp [hi]

/-- Writing mstatus whole and reading it whole gives the XLEN bits written: each field is put back where it was read, and the
named and unnamed positions together are all XLEN bits (R17, R19). -/
theorem Mstatus.pack_unpack (x : XLen) (v : Word) (m : Mstatus) : (m.unpack x v).pack x = v &&& x.mask := by
  cases x <;>
    simp (disch := decide) only [Mstatus.pack, Mstatus.unpack, bitAt_getLsbD, pairAt_extractLsb', BitVec.and_assoc,
      BitVec.or_zero, ← BitVec.and_or_distrib_left]
  · exact congrArg (v &&& ·) (by decide)
  · exact congrArg (v &&& ·) (by decide)

/-- The mask of a cause code is XLEN-1 ones (R25). -/
theorem causeCodeMask_eq (x : XLen) : causeCodeMask x = BitVec.ofNat 63 (2 ^ (x.bits - 1) - 1) := by
  cases x <;> rfl

/-- A cause code has the XLEN-1 low bits of the register and no other (R25). -/
theorem getLsbD_causeUnpack_code (x : XLen) (v : Word) (b : Nat) :
    (Cause.unpack x v).code.getLsbD b = (decide (b < x.bits - 1) && v.getLsbD b) := by
  have hwidth : x.bits - 1 ≤ 63 := by cases x <;> decide
  rw [Cause.unpack, causeCodeMask_eq, BitVec.getLsbD_and, BitVec.getLsbD_setWidth, BitVec.getLsbD_ofNat,
    Nat.testBit_two_pow_sub_one]
  by_cases h : b < x.bits - 1
  · simp [h, show b < 63 by omega]
  · simp [h]

theorem causeUnpack_code (x : XLen) (v : Word) :
    (Cause.unpack x v).code = BitVec.ofNat 63 (v.toNat % 2 ^ (x.bits - 1)) := by
  apply BitVec.eq_of_getLsbD_eq
  intro b hb
  rw [getLsbD_causeUnpack_code, BitVec.getLsbD_ofNat, Nat.testBit_mod_two_pow, BitVec.testBit_toNat]
  simp [hb]

/-- Writing a cause register whole and reading it whole gives the XLEN bits written (R25). -/
theorem Cause.pack_unpack (x : XLen) (v : Word) : (Cause.unpack x v).pack x = v &&& x.mask := by
  have hcode : (Cause.unpack x v).code.setWidth 64 = v &&& (causeCodeMask x).setWidth 64 := by
    apply BitVec.eq_of_getLsbD_eq
    intro i hi
    by_cases h : i < 63
    · simp [Cause.unpack, hi, h]
    · simp [BitVec.getLsbD_of_ge _ i (Nat.not_lt.1 h)]
  have hflag : bitAt (x.bits - 1) (Cause.unpack x v).intr = v &&& bitAt (x.bits - 1) true :=
    bitAt_getLsbD v (by cases x <;> decide)
  have hmask : bitAt (x.bits - 1) true ||| (causeCodeMask x).setWidth 64 = x.mask := by cases x <;> decide
  rw [Cause.pack, hcode, hflag, ← BitVec.and_or_distrib_left, hmask]

/-- Settles O52, by the two read-back lemmas and the positions of the fields. -/
theorem packedRegistersReadBack : Obligations.PackedRegistersReadBack := by
  intro x v m
  have hmpp (j : Nat) (hj : j < 2) : (m.unpack x v).mpp.getLsbD j = v.getLsbD (11 + j) := by
    simp [Mstatus.unpack, hj]
  refine ⟨m.pack_unpack x v, Cause.pack_unpack x v, rfl, rfl, rfl, rfl, rfl, hmpp 0 (by decide), hmpp 1 (by decide), rfl, rfl,
    ?_, ?_, rfl, rfl, ?_, ?_⟩
  · rintro rfl
    simp [Mstatus.unpack]
  · rintro rfl
    exact ⟨rfl, rfl⟩
  · intro b hb
    simp [getLsbD_causeUnpack_code, hb]
  · intro b hb
    simp [getLsbD_causeUnpack_code, hb]

/-! ## Another agent's write (R41) -/

/-- With another agent's write presented first, the step is that write (R41, R54). -/
theorem step_writer {w : Write} {rest : List Input} (h : s.inputs = .writer w :: rest) :
    step s = .next (writerCycle w (s.withInputs rest)) := by
  simp only [step, h, decode]

/-- No write of another agent is of the current privilege (R41). -/
@[simp] theorem applyWrite_curPrivilege (c : Config) (w : Write) (rf : RegFile) :
    (applyWrite c w rf).curPrivilege = rf.curPrivilege := by
  cases w with
  | reg r v => cases r <;> rfl
  | _ => rfl

/-- UXL and SXL are written with mstatus exactly where they have a position, at XLEN = 64 (R19, R22). -/
theorem Mstatus.unpack_xl (x : XLen) (v : Word) (m : Mstatus) :
    (m.unpack x v).uxl = (if x = .rv64 then v.extractLsb' 32 2 else m.uxl) ∧
      (m.unpack x v).sxl = (if x = .rv64 then v.extractLsb' 34 2 else m.sxl) := by
  cases x <;> exact ⟨rfl, rfl⟩

/-- Settles O51: the step is the write, and each kind of write changes its own field. -/
theorem writersNeverTouchPrivilegeOrLatch : Obligations.WritersNeverTouchPrivilegeOrLatch := by
  intro s w rest h
  refine ⟨_, step_writer h, applyWrite_curPrivilege _ _ _, rfl, rfl, rfl, rfl, rfl, ?_⟩
  rw [writerCycle_rf, withInputs_cfg, withInputs_rf]
  cases w with
  | statusBit f b => cases f <;> rfl
  | xl level v => cases level <;> rfl
  | reg r v => cases r <;> rfl
  | mstatus v =>
    obtain ⟨hu, hs⟩ := Mstatus.unpack_xl s.cfg.xlen v s.rf.mstatus
    simp only [← hu, ← hs]
    rfl
  | mcause v => simp only [← causeUnpack_code]; rfl
  | scause v => simp only [← causeUnpack_code]; rfl
  | mpp v => rfl
  | mcounteren v => rfl
  | scounteren v => rfl
  | stce b => rfl

/-! ## What no instruction writes (R37, R38) -/

/-- A trap entry leaves alone MPRV and every part of mstatus that belongs to no level's trap state (R37). -/
theorem commitTrap_statusFrame (c : Config) (l : TrapLevel) (tc : TrapContext) (rf : RegFile) :
    let m := (commitTrap c l tc rf).mstatus
    m.mprv = rf.mstatus.mprv ∧ m.tvm = rf.mstatus.tvm ∧ m.uxl = rf.mstatus.uxl ∧ m.sxl = rf.mstatus.sxl ∧
      m.mxl = rf.mstatus.mxl ∧ m.other = rf.mstatus.other := by
  cases l <;> exact ⟨rfl, rfl, rfl, rfl, rfl, rfl⟩

/-- Settles O36: none of the five shapes of a completed instruction writes any of these. -/
theorem noInstructionWritesGatesOrMasks : Obligations.NoInstructionWritesGatesOrMasks := by
  intro s t i h
  obtain ⟨-, hshape⟩ := exec_next_shape h
  cases hshape
  case answered | mretDone | sretDone | checked => and_intros <;> rfl
  case entered l tc base _ _ _ _ =>
    obtain ⟨hmtvec, hstvec, hmedeleg, hmideleg, hmie, hmip, hmcounteren, hscounteren, hstce⟩ :=
      commitTrap_frame s.cfg tc s.rf l
    obtain ⟨-, hstatus⟩ := commitTrap_statusFrame s.cfg l tc s.rf
    exact ⟨rfl, rfl, rfl, hmip, hmie, hmedeleg, hmideleg, hmtvec, hstvec, hmcounteren, hscounteren, hstce, hstatus⟩

/-! ## MPRV (R21) -/

/-- A trap return sets MPRV at no privilege (R21). -/
theorem leaveMachine_mprv_of_clear (c : Config) (p : Priv) {m : Mstatus} (h : m.mprv = false) :
    (m.leaveMachine c p).mprv = false := by
  simp [Mstatus.leaveMachine, h]

theorem leaveSupervisor_mprv_of_clear (p : Priv) {m : Mstatus} (h : m.mprv = false) :
    (m.leaveSupervisor p).mprv = false := by
  simp [Mstatus.leaveSupervisor, h]

/-- Settles O35: each shape of a completed instruction leaves a clear MPRV clear, and the two returns clear it below Machine. -/
theorem mprvClearAfterReturnBelowMachine : Obligations.MprvClearAfterReturnBelowMachine := by
  intro s t i h
  constructor
  · intro hclear
    obtain ⟨-, hshape⟩ := exec_next_shape h
    cases hshape with
    | answered => exact hclear
    | entered l tc base =>
      obtain ⟨hmprv, -⟩ := commitTrap_statusFrame s.cfg l tc s.rf
      exact hmprv.trans hclear
    | mretDone p => exact leaveMachine_mprv_of_clear _ p hclear
    | sretDone => exact leaveSupervisor_mprv_of_clear _ hclear
    | checked => exact hclear
  · rintro (rfl | rfl) hbelow <;> obtain ⟨-, hreturn⟩ := whenLive_next.1 h
    · obtain ⟨p, -, rfl⟩ := machineReturn_next.1 hreturn
      exact leaveMachine_mprv _ hbelow _
    · obtain ⟨-, rfl⟩ := supervisorReturn_next.1 hreturn
      exact leaveSupervisor_mprv hbelow _

/-! ## The fields of the two levels (R44, R133) -/

/-- SRET returns below Machine, whatever SPP holds (R115). -/
theorem sretPrivilege_ne_machine (spp : Bool) : (if spp then Priv.supervisor else .user) ≠ .machine := by
  cases spp <;> decide

/-- Settles O37: each shape of a completed instruction writes the fields of one level at most. -/
theorem levelsUseDisjointFields : Obligations.LevelsUseDisjointFields := by
  intro s t i h
  obtain ⟨-, hshape⟩ := exec_next_shape h
  cases hshape
  case answered | checked => exact ⟨fun _ => ⟨rfl, rfl, rfl, rfl, rfl, rfl⟩, fun _ => ⟨rfl, rfl, rfl, rfl, rfl, rfl⟩⟩
  case entered l tc base _ _ _ hi =>
    cases l with
    | machine =>
      refine ⟨fun _ => ⟨rfl, rfl, rfl, rfl, rfl, rfl⟩, ?_⟩
      rintro (rfl | ⟨-, hsup⟩)
      · cases hi
      · cases hsup
    | supervisor =>
      refine ⟨?_, fun _ => ⟨rfl, rfl, rfl, rfl, rfl, rfl⟩⟩
      rintro (hmach | rfl)
      · cases hmach
      · cases hi
  case mretDone p _ hi =>
    refine ⟨fun _ => ⟨rfl, rfl, rfl, rfl, rfl, rfl⟩, ?_⟩
    rintro (rfl | ⟨hhook, -⟩)
    · simp at hi
    · cases hhook
  case sretDone _ hi =>
    refine ⟨?_, fun _ => ⟨rfl, rfl, rfl, rfl, rfl, rfl⟩⟩
    rintro (hmach | rfl)
    · exact absurd hmach (sretPrivilege_ne_machine _)
    · simp at hi

/-! ## Configured levels (R18, R114) -/

/-- Settles O45: a trap entry leads to a level its checks allow and keeps the old one in MPP; a return leads to the level in MPP or
to one `HAVE_S` implies, and leaves the least configured level in MPP. -/
theorem instructionsKeepConfiguredLevel : Obligations.InstructionsKeepConfiguredLevel := by
  intro s t i hlegal hs h
  obtain ⟨hSU, -⟩ := hlegal
  obtain ⟨hcur, hmpp⟩ := hs
  obtain ⟨-, hshape⟩ := exec_next_shape h
  cases hshape with
  | answered => exact ⟨hcur, hmpp⟩
  | checked => exact ⟨hcur, hmpp⟩
  | entered l tc base hentry =>
    cases l with
    | machine => exact ⟨rfl, by simpa [commitTrap, Mstatus.enterMachine] using hcur⟩
    | supervisor =>
      obtain ⟨-, -, hsup⟩ := checkEntry_ok.1 hentry
      obtain ⟨hS, -⟩ := hsup rfl
      exact ⟨hS, hmpp⟩
  | mretDone p hp =>
    refine ⟨by simpa [hp] using hmpp, ?_⟩
    cases hU : s.cfg.haveU <;> simp [Mstatus.leaveMachine, levelConfigured, hU]
  | sretDone hS =>
    refine ⟨?_, hmpp⟩
    show levelConfigured s.cfg (if s.rf.mstatus.spp then .supervisor else .user) = true
    split
    · exact hS
    · exact hSU hS

end Sys2Proof.Machine
end

section
/-! When the reservation is cancelled and the trap-entry hook is called (R55, R104, R106, R118). -/

namespace Sys2Proof.Machine

variable {s t : State} {i : Instr}

/-! ## The two ports after each shared operation -/

/-- A trap entry cancels the reservation and calls the hook (R104, R106). -/
theorem takeTrap_cancel_hook {b : BitVec 2} {tc : TrapContext} {base : Results} (h : takeTrap b tc base s = .next t) :
    t.out.cancelReservation = true ∧ t.out.extHookValid = true := by
  obtain ⟨l, -, rfl⟩ := takeTrap_next.1 h
  exact ⟨rfl, rfl⟩

theorem takeException_cancel_hook {code : BitVec 8} {pc : Word} {info : Option Word} {ext : Option Nat}
    (h : takeException code pc info ext s = .next t) :
    t.out.cancelReservation = true ∧ t.out.extHookValid = true :=
  takeTrap_cancel_hook h

/-- IRQTAKE commits exactly when it finds an interrupt to take (R109). -/
theorem takeInterrupt_cancel_hook {pc : Word} (h : takeInterrupt pc s = .next t) :
    t.out.cancelReservation = t.out.resValid ∧ t.out.extHookValid = t.out.resValid := by
  obtain ⟨-, rfl⟩ | ⟨code, l, -, -, rfl⟩ := takeInterrupt_next h <;> exact ⟨rfl, rfl⟩

/-- A trap return cancels the reservation and calls no hook (R118). -/
theorem machineReturn_cancel_hook (h : machineReturn s = .next t) :
    t.out.cancelReservation = true ∧ t.out.extHookValid = false := by
  obtain ⟨p, -, rfl⟩ := machineReturn_next.1 h
  exact ⟨rfl, rfl⟩

theorem supervisorReturn_cancel_hook (h : supervisorReturn s = .next t) :
    t.out.cancelReservation = true ∧ t.out.extHookValid = false := by
  obtain ⟨-, rfl⟩ := supervisorReturn_next.1 h
  exact ⟨rfl, rfl⟩

/-- A return behind the caller's check `P` cancels either way; it calls the hook where the check fails, because the caller then
presents EXCTAKE (R131, R153, R154). -/
theorem callerReturn_cancel_hook {P : Prop} [Decidable P] {ret : Result} {ctx : Caller}
    (hret : ret = .next t → t.out.cancelReservation = true ∧ t.out.extHookValid = false)
    (h : (if P then ret else callerIllegal ctx s) = .next t) :
    t.out.cancelReservation = true ∧ (t.out.extHookValid = false ↔ P) := by
  split at h
  case isTrue hP =>
    obtain ⟨hcancel, hhook⟩ := hret h
    exact ⟨hcancel, iff_of_true hhook hP⟩
  case isFalse hP =>
    obtain ⟨hcancel, hhook⟩ := takeException_cancel_hook h
    exact ⟨hcancel, iff_of_false (by simp [hhook]) hP⟩

/-- The caller's check before SRET: `HAVE_S`, and at least Supervisor (R153). -/
theorem sretCheck_iff (haveS : Bool) (p : Priv) :
    (haveS && !privLt p .supervisor) = true ↔ haveS = true ∧ p ≠ .user := by
  cases haveS <;> cases p <;> decide

/-! ## Every instruction -/

/-- The reservation is cancelled exactly where the block gives the next address (R55). -/
theorem Shape.cancel_eq_nextPcValid (h : Shape s i t) : t.out.cancelReservation = t.out.nextPcValid := by
  cases h with
  | answered r hcancel hhook hnext => exact hcancel.trans hnext.symm
  | entered => rfl
  | mretDone => rfl
  | sretDone => rfl
  | checked => rfl

/-- An instruction that performs neither a trap entry nor a return leaves both ports 0 (R84, R87, R95). -/
theorem Shape.no_cancel_hook (h : Shape s i t) (hentry : mayEnter i = false) (hmret : i ≠ .mret) (hsret : i ≠ .sret) :
    t.out.cancelReservation = false ∧ t.out.extHookValid = false := by
  cases h with
  | answered r hcancel hhook => exact ⟨hcancel, hhook⟩
  | checked => exact ⟨rfl, rfl⟩
  | entered l tc base hc hv hb hi => simp [hentry] at hi
  | mretDone p hp hi =>
    obtain rfl | ⟨⟨ctx, rfl⟩, -⟩ := hi
    · exact absurd rfl hmret
    · cases hentry
  | sretDone hs hi =>
    obtain rfl | ⟨⟨ctx, rfl⟩, -⟩ := hi
    · exact absurd rfl hsret
    · cases hentry

/-- Settles O38: the instructions that commit through the shared operation each performs, the others by the shapes left to
them. -/
theorem cancelAndHookExactlyOnCommit : Obligations.CancelAndHookExactlyOnCommit := by
  intro s t i h
  obtain ⟨-, hshape⟩ := exec_next_shape h
  refine ⟨hshape.cancel_eq_nextPcValid, ?trapent, ?exctake, ?irqtake, ?returns, ?rvMret, ?rvSret, ?others⟩
  case trapent =>
    rintro tgt isIntr code pc info ext rfl
    obtain ⟨-, hentry⟩ := whenLive_next.1 h
    exact takeTrap_cancel_hook hentry
  case exctake =>
    rintro code pc info ext rfl
    obtain ⟨-, hentry⟩ := whenLive_next.1 h
    exact takeException_cancel_hook hentry
  case irqtake =>
    rintro pc rfl
    obtain ⟨-, hentry⟩ := whenLive_next.1 h
    exact takeInterrupt_cancel_hook hentry
  case returns =>
    rintro (rfl | rfl) <;> obtain ⟨-, hreturn⟩ := whenLive_next.1 h
    · exact machineReturn_cancel_hook hreturn
    · exact supervisorReturn_cancel_hook hreturn
  case rvMret =>
    rintro ctx rfl
    obtain ⟨-, hreturn⟩ := whenLive_next.1 h
    exact callerReturn_cancel_hook machineReturn_cancel_hook hreturn
  case rvSret =>
    rintro ctx rfl
    obtain ⟨-, hreturn⟩ := whenLive_next.1 h
    rw [← sretCheck_iff]
    exact callerReturn_cancel_hook supervisorReturn_cancel_hook hreturn
  case others =>
    intro htrapent hexctake hirqtake hmret hsret hrvMret hrvSret
    refine hshape.no_cancel_hook ?_ hmret hsret
    cases i with
    | trapent => exact absurd rfl (htrapent _ _ _ _ _ _)
    | exctake => exact absurd rfl (hexctake _ _ _ _)
    | irqtake => exact absurd rfl (hirqtake _)
    | rvMret => exact absurd rfl (hrvMret _)
    | rvSret => exact absurd rfl (hrvSret _)
    | _ => rfl

end Sys2Proof.Machine
end

section
/-! Decoding: the command port and the instruction words read back what the encoder put there (R61, R62, R64, R67, R74). -/

namespace Sys2Proof

/-! ## What the decoder reads -/

/-- An optional operand comes back from its valid bit and value ports (R67). -/
@[simp] theorem optPort_isSome_getD {α : Type} (o : Option α) (d : α) : optPort o.isSome (o.getD d) = o := by
  cases o <;> rfl

/-- A cycle with `cmd_valid` and without `rst` is the command on its ports (R60, R61). -/
theorem decode_command {p : Ports} (hr : p.rst = false) (hv : p.cmdValid = true) :
    decode (.cycle p) = .ok (decodePorts p) := by
  simp [decode, hr, hv]

/-- A cycle with neither is idle (R60). -/
theorem decode_idle {p : Ports} (hr : p.rst = false) (hv : p.cmdValid = false) :
    decode (.cycle p) = .error .idleCycle := by
  simp [decode, hr, hv]

/-- A word of R74 is the caller-side instruction it stands for. -/
theorem decode_word {w : BitVec 32} {ctx : Caller} {i : Instr} (h : decodeInsn w ctx = some i) :
    decode (.insn w ctx) = .ok i := by
  simp [decode, h]

/-- Only a cycle with `rst` = 1 is a reset cycle (R147). -/
theorem decode_eq_resetCycle {e : Input} : decode e = .error .resetCycle ↔ ∃ p, e = .cycle p ∧ p.rst = true := by
  constructor
  · intro h
    cases e with
    | cycle p =>
      refine ⟨p, rfl, ?_⟩
      cases hr : p.rst with
      | true => rfl
      | false => cases hv : p.cmdValid <;> simp [decode, hr, hv] at h
    | insn w ctx => obtain ⟨i, -, hd⟩ | hd := Machine.decode_insn w ctx <;> simp [hd] at h
    | hartStep a => simp [decode] at h
    | writer w => simp [decode] at h
  · rintro ⟨p, rfl, hr⟩
    simp [decode, hr]

/-! ## The round trip -/

/-- Settles O4: a command comes back from its ports, its optional operands from their valid bits; a word of R74 comes back from
its fields, those of the CSR instructions never being the word of MRET or SRET. -/
theorem decodeAfterEncode : Obligations.DecodeAfterEncode := by
  intro i
  cases i
  case trapent | exctake => simp [encode, decode, decodePorts]
  case rvMret | rvSret => exact decode_word (by simp [decodeInsn])
  case rvCsrrw | rvCsrrs | rvCsrrc | rvCsrrwi | rvCsrrsi | rvCsrrci =>
    exact decode_word (by simp [decodeInsn, csrInsnWord_ne_xret])
  all_goals exact decode_command rfl rfl

/-- Settles O3, word by word. -/
theorem tableWordsDecode : Obligations.TableWordsDecode := by
  refine ⟨rfl, rfl, rfl, ?_, ?_, ?_, ?_⟩ <;> decide

end Sys2Proof
end

section
/-! One step from its first input (R50, R60, R147), and how an instruction stops: the latch, the privilege operand and the
reserved codes (R71 to R73). -/

namespace Sys2Proof.Machine

variable {s : State} {e : Input} {rest : List Input} {i : Instr}

/-! ## The step of each kind of cycle -/

/-- A decoded instruction is executed on the state in which it is no longer waiting (R50). -/
theorem step_decoded (hin : s.inputs = e :: rest) (hd : decode e = .ok i) :
    step s = exec i (s.withInputs rest) := by
  simp only [step, hin, hd]

/-- With nothing presented the block idles (R60). -/
theorem step_nothing (hin : s.inputs = []) : step s = .next (idleCycle s) := by
  simp only [step, hin]

theorem step_idle (hin : s.inputs = e :: rest) (hd : decode e = .error .idleCycle) :
    step s = .next (idleCycle (s.withInputs rest)) := by
  simp only [step, hin, hd]

theorem step_reset (hin : s.inputs = e :: rest) (hd : decode e = .error .resetCycle) :
    step s = .next (resetCycle (s.withInputs rest)) := by
  simp only [step, hin, hd]

/-- Settles O1, from what the decoder reads in the first input. -/
theorem stepRunsDecodedInput : Obligations.StepRunsDecodedInput := by
  intro s e rest hin
  refine ⟨fun i hd => step_decoded hin hd, ?_, ?_⟩
  · rintro p rfl hr hv
    exact step_decoded hin (decode_command hr hv)
  · rintro w ctx i rfl hd
    exact step_decoded hin (decode_word hd)

/-- Settles O2: either way the step is the idle cycle. -/
theorem cycleWithoutCommandDoesNothing : Obligations.CycleWithoutCommandDoesNothing :=
  fun _ => ⟨step_nothing, fun _ _ hin hr hv => step_idle hin (decode_idle hr hv)⟩

/-! ## The reserved command codes (R72) -/

/-- The command code of a reserved instruction. -/
def reservedCode : Instr → Option (BitVec 4)
  | .reserved9 => some 0x9#4
  | .reservedA => some 0xA#4
  | .reservedB => some 0xB#4
  | .reservedC => some 0xC#4
  | .reservedD => some 0xD#4
  | .reservedE => some 0xE#4
  | .reservedF => some 0xF#4
  | _ => none

/-- While the latch is clear a reserved instruction is Refused under its own code (R72). -/
theorem exec_reserved (hl : s.Live) {c : BitVec 4} (hc : reservedCode i = some c) :
    exec i s = .refused (.reservedCommand c) := by
  cases i <;> cases hc <;> exact whenLive_live hl _

/-- The codes 0x9 to 0xF, and no others, decode to reserved instructions (R61, R72). -/
theorem reservedCode_decodePorts (p : Ports) :
    reservedCode (decodePorts p) = if 9 ≤ p.cmd.toNat then some p.cmd else none := by
  obtain ⟨n, hn⟩ : ∃ n : Fin 16, p.cmd = BitVec.ofFin n := ⟨p.cmd.toFin, rfl⟩
  unfold decodePorts
  rw [hn]
  fin_cases n <;> rfl

/-! ## How an instruction is Refused -/

/-- An operation behind a privilege operand is Refused for `0b10`, or for a reason of its own (R71). -/
theorem withPriv_refused {b : BitVec 2} {k : Priv → Result} {r : Refusal} (h : withPriv b k = .refused r) :
    r = .privilegeOperand ∨ ∃ p, k p = .refused r := by
  unfold withPriv at h
  split at h
  · exact .inr ⟨_, h⟩
  · exact .inl (Host.Outcome.refused.inj h).symm

/-- While the latch is set every instruction is Refused (R73). -/
theorem exec_latched (hl : s.latch.fatal = true) (i : Instr) : exec i s = .refused (.afterFatal s.latch.code) := by
  cases i <;> exact whenLive_latched hl _

/-- A return behind the caller's check is never Refused once it runs. -/
theorem callerReturn_not_refused {P : Prop} [Decidable P] {ret : Result} {ctx : Caller} {r : Refusal}
    (hret : ret ≠ .refused r) : (if P then ret else callerIllegal ctx s) ≠ .refused r := by
  split
  · exact hret
  · exact takeException_not_refused _ _ _ _ _

/-- While the latch is clear, an instruction that is not reserved is Refused for its privilege operand alone (R71). -/
theorem exec_refused_unreserved {r : Refusal} (hl : s.Live) (hc : reservedCode i = none) (h : exec i s = .refused r) :
    r = .privilegeOperand := by
  cases i <;> replace h := (whenLive_live hl _).symm.trans h
  case csrchk | excres =>
    obtain hr | ⟨p, hk⟩ := withPriv_refused h
    · exact hr
    · cases hk
  case irqres =>
    obtain hr | ⟨p, hk⟩ := withPriv_refused h
    · exact hr
    · split at hk <;> cases hk
  case irqsel => split at h <;> cases h
  case trapent => exact absurd h (takeTrap_not_refused _ _ _ _)
  case exctake => exact absurd h (takeException_not_refused _ _ _ _ _)
  case irqtake => exact absurd h (takeInterrupt_not_refused _ _)
  case mret => exact absurd h (machineReturn_not_refused _)
  case sret => exact absurd h (supervisorReturn_not_refused _)
  case rvMret => exact absurd h (callerReturn_not_refused (machineReturn_not_refused _))
  case rvSret => exact absurd h (callerReturn_not_refused (supervisorReturn_not_refused _))
  case rvCsrrw | rvCsrrs | rvCsrrc | rvCsrrwi | rvCsrrsi | rvCsrrci => cases h
  all_goals cases hc

/-- Everything a refusal of an instruction can be: the set latch (R73), an invalid privilege operand (R71), or a reserved
command's own code (R72). -/
theorem exec_refused {r : Refusal} (h : exec i s = .refused r) :
    (s.latch.fatal = true ∧ r = .afterFatal s.latch.code) ∨
    (s.latch.fatal = false ∧
      (r = .privilegeOperand ∨ ∃ c, reservedCode i = some c ∧ r = .reservedCommand c)) := by
  cases hl : s.latch.fatal with
  | true => exact .inl ⟨rfl, Host.Outcome.refused.inj (h.symm.trans (exec_latched hl i))⟩
  | false =>
    refine .inr ⟨rfl, ?_⟩
    cases hc : reservedCode i with
    | none => exact .inl (exec_refused_unreserved hl hc h)
    | some c => exact .inr ⟨c, rfl, Host.Outcome.refused.inj (h.symm.trans (exec_reserved hl hc))⟩

/-- Settles O5: the reserved instructions are those the codes from 9 up decode to, and no other is Refused as one. -/
theorem reservedCodesAreNineToFifteen : Obligations.ReservedCodesAreNineToFifteen := by
  intro p s hl
  have hcode := reservedCode_decodePorts p
  have hrefused : 9 ≤ p.cmd.toNat → exec (decodePorts p) s = .refused (.reservedCommand p.cmd) :=
    fun h9 => exec_reserved hl (by rw [hcode, if_pos h9])
  refine ⟨⟨?_, fun h9 => ⟨_, hrefused h9⟩⟩, hrefused⟩
  rintro ⟨r, hr⟩
  obtain ⟨hset, -⟩ | ⟨-, hr | ⟨c, hc, -⟩⟩ := exec_refused hr
  · cases hset.symm.trans hl
  · cases hr
  · by_contra h9
    rw [hcode, if_neg h9] at hc
    cases hc

/-- Settles O41: each reserved instruction under its code, and any ports with a code from 9 up. -/
theorem reservedCommandsAreRefused : Obligations.ReservedCommandsAreRefused := by
  intro s hl
  refine ⟨exec_reserved hl rfl, exec_reserved hl rfl, exec_reserved hl rfl, exec_reserved hl rfl, exec_reserved hl rfl,
    exec_reserved hl rfl, exec_reserved hl rfl, fun p h9 => ?_⟩
  have hr : exec (decodePorts p) s = .refused (.reservedCommand p.cmd) :=
    exec_reserved hl (by rw [reservedCode_decodePorts, if_pos h9])
  exact ⟨hr, by rw [hr]; rfl⟩

/-- Settles O39: a fault drives its own code; each kind of refusal drives `cmd_err`, and the set latch its own two ports. -/
theorem stoppedCommandsDriveOnlyErrors : Obligations.StoppedCommandsDriveOnlyErrors := by
  intro s i
  constructor
  · intro f hf
    rw [hf]
    cases f <;> rfl
  · intro r hr
    rw [hr]
    obtain ⟨hl, rfl⟩ | ⟨hl, rfl | ⟨c, -, rfl⟩⟩ := exec_refused hr <;> simp [hl, resultPorts, Refusal.results]

/-! ## After a Fatal command (R73) -/

/-- While the latch is set no instruction step of the hart answers either: its first command is Refused. -/
theorem beginHartStep_latched (hl : s.latch.fatal = true) (a : HartAct) :
    beginHartStep a s = .refused (.afterFatal s.latch.code) := by
  have hq : execIrqtake a.pc s = .refused (.afterFatal s.latch.code) := exec_latched hl (.irqtake a.pc)
  simp only [beginHartStep, hq]

/-- Settles O40: of the inputs a step can answer, instructions are Refused, and all others but a reset cycle leave the latch. -/
theorem nothingRunsAfterFatal : Obligations.NothingRunsAfterFatal := by
  intro s hl
  refine ⟨fun i => ⟨exec_latched hl i, by rw [exec_latched hl i]; rfl⟩, ?_, ?_⟩
  · intro t hstep
    obtain ⟨-, rfl⟩ | ⟨e, rest, hin, hcases⟩ := step_next hstep
    · exact .inl rfl
    have hl' : (s.withInputs rest).latch.fatal = true := hl
    rcases hcases with ⟨i, -, hk⟩ | ⟨hd, rfl⟩ | ⟨-, rfl⟩ | ⟨w, -, rfl⟩ | ⟨a, -, hk⟩
    · rw [exec_latched hl' i] at hk
      cases hk
    · obtain ⟨p, rfl, hr⟩ := decode_eq_resetCycle.1 hd
      exact .inr ⟨p, rest, hin, hr⟩
    · exact .inl rfl
    · exact .inl rfl
    · rw [beginHartStep_latched hl' a] at hk
      cases hk
  · intro p rest hin hr
    exact ⟨_, step_reset hin (decode_eq_resetCycle.2 ⟨p, rfl, hr⟩), rfl⟩

end Sys2Proof.Machine
end

section
/-! The caller-side instructions: which command each presents (R74, R83, R131, R153 to R155). -/

namespace Sys2Proof.Machine

variable {s : State} {ctx : Caller}

/-! ## RV.MRET and RV.SRET -/

/-- RV.MRET at Machine is MRET (R154). -/
theorem exec_rvMret_of_machine (h : s.rf.curPrivilege = .machine) : exec (.rvMret ctx) s = exec .mret s :=
  congrArg (whenLive s) (if_pos h)

/-- RV.MRET below Machine is an illegal instruction (R154). -/
theorem exec_rvMret_below_machine (h : s.rf.curPrivilege ≠ .machine) :
    exec (.rvMret ctx) s = exec (.exctake s.cfg.illegalCode ctx.pc ctx.info ctx.ext) s :=
  congrArg (whenLive s) (if_neg h)

/-- RV.SRET with Supervisor and above User is SRET (R153). -/
theorem exec_rvSret_of_check (hS : s.cfg.haveS = true) (hp : s.rf.curPrivilege ≠ .user) :
    exec (.rvSret ctx) s = exec .sret s :=
  congrArg (whenLive s) (if_pos ((sretCheck_iff _ _).2 ⟨hS, hp⟩))

/-- RV.SRET without Supervisor or at User is an illegal instruction (R153). -/
theorem exec_rvSret_of_not_check (h : s.cfg.haveS = false ∨ s.rf.curPrivilege = .user) :
    exec (.rvSret ctx) s = exec (.exctake s.cfg.illegalCode ctx.pc ctx.info ctx.ext) s := by
  refine congrArg (whenLive s) (if_neg ?_)
  rw [sretCheck_iff]
  rintro ⟨hS, hp⟩
  obtain h | h := h
  · simp [hS] at h
  · exact hp h

/-- Settles O46: which command is presented, and where the two returns complete. -/
theorem callerReturnsAreChecked : Obligations.CallerReturnsAreChecked := by
  intro s ctx hl
  refine ⟨exec_rvMret_of_machine, ?_, exec_rvMret_below_machine, ?_, exec_rvSret_of_not_check⟩
  · intro hm hmpp
    obtain ⟨t, ht⟩ := machineReturn_completes hmpp
    obtain ⟨p, hp, rfl⟩ := machineReturn_next.1 ht
    exact ⟨_, (exec_rvMret_of_machine hm).trans (whenLive_next.2 ⟨hl, ht⟩), hp.symm⟩
  · intro hS hp
    have hsret := exec_rvSret_of_check (ctx := ctx) hS hp
    exact ⟨hsret, _, hsret.trans (whenLive_next.2 ⟨hl, supervisorReturn_next.2 ⟨hS, rfl⟩⟩), rfl⟩

/-! ## The CSR instructions -/

/-- A source field is not 0 exactly when its number is not. -/
theorem decide_field_ne_zero (r : BitVec 5) : decide (r ≠ 0#5) = decide (r.toNat ≠ 0) := by
  simp [← BitVec.toNat_inj]

/-- CSRCHK at the current privilege answers the six checks for it (R75, R84). -/
theorem exec_csrchk_current (hl : s.Live) (csr : BitVec 12) (w : Bool) :
    exec (.csrchk csr (privCode s.rf.curPrivilege) w) s =
      answer { allowed := canAccess s.cfg s.rf csr s.rf.curPrivilege w } s :=
  (whenLive_live hl _).trans (withPriv_privCode _ _)

/-- On a denial, or for an undefined CSR, the caller presents an illegal instruction and nothing else (R83, R155). -/
theorem afterCheck_illegal {c : Config} {a w : Bool} (h : ctx.csrDefined = false ∨ a = false) :
    afterCheck c a w ctx = [encode (.exctake c.illegalCode ctx.pc ctx.info ctx.ext)] := by
  obtain h | h := h <;> simp [afterCheck, h]

/-- Once granted, a write is the data path's own writes, and a read presents nothing (R83). -/
theorem afterCheck_granted {c : Config} {w : Bool} (hd : ctx.csrDefined = true) :
    afterCheck c true w ctx = if w = true then ctx.writes.map .writer else [] := by
  simp [afterCheck, hd]

/-- Settles O47: each of the six is the caller's CSRCHK in its own direction, and what that presents next depends on the check
as afterCheck says. -/
theorem callerCsrInstructionsPresentCheck : Obligations.CallerCsrInstructionsPresentCheck := by
  intro s csr r rd ctx i w hl hi
  have hexec : exec i s = presentCheck csr w ctx s := by
    rw [← decide_field_ne_zero] at hi
    obtain ⟨rfl, rfl⟩ | ⟨rfl, rfl⟩ | ⟨rfl, rfl⟩ | ⟨rfl, rfl⟩ | ⟨rfl, rfl⟩ | ⟨rfl, rfl⟩ := hi <;>
      exact whenLive_live hl _
  rw [hexec, exec_csrchk_current hl]
  refine ⟨_, rfl, afterCheck_illegal, fun hd ha => ?_⟩
  have hgranted : canAccess s.cfg s.rf csr s.rf.curPrivilege w = true := ha
  rw [hgranted]
  exact afterCheck_granted hd

end Sys2Proof.Machine
end

section
/-! The CSR access check: what CSRCHK answers for each privilege (R75 to R81), and what it reads and leaves alone (R84). -/

namespace Sys2Proof.Machine

variable {s t : State} {i : Instr} {c : Config} {rf rf' : RegFile} {csr : BitVec 12} {p : Priv} {w : Bool}

/-! ## CSRCHK and its six checks -/

/-- With the latch clear CSRCHK answers the six checks for the privilege its operand codes, not the current
one (R75, R82). -/
theorem exec_csrchk_eq (hl : s.Live) {a : Bool} (ha : canAccess s.cfg s.rf csr p w = a) :
    exec (.csrchk csr (privCode p) w) s = .next { s with out := { allowed := a } } := by
  subst ha
  exact (whenLive_live hl _).trans (withPriv_privCode _ _)

/-- With `priv_arg` = `0b10` it is Refused (R71). -/
theorem exec_csrchk_invalid (hl : s.Live) (csr : BitVec 12) (w : Bool) :
    exec (.csrchk csr 0b10#2 w) s = .refused .privilegeOperand :=
  (whenLive_live hl _).trans (withPriv_invalid _)

/-- Command code 0x0 selects CSRCHK (R61, R64). -/
theorem decodePorts_csrchk {q : Ports} (h : q.cmd = 0x0#4) : decodePorts q = .csrchk q.csrAddr q.privArg q.isWrite := by
  simp [decodePorts, h]

/-- The answer is 1 exactly when each of the six checks passes (R75). -/
theorem canAccess_iff : canAccess c rf csr p w = true ↔
    accessModeOk c csr w = true ∧ privilegeOk csr p = true ∧ tvmOk c rf csr p = true ∧ counterOk c rf csr p = true ∧
      timeCompareOk c rf csr p = true ∧ entropyOk c csr p w = true := by
  simp only [canAccess, Bool.and_eq_true, and_assoc]

/-- Settles O9: the answer of the operation, check by check. -/
theorem csrchkAnswersSixChecks : Obligations.CsrchkAnswersSixChecks := by
  intro s csr w hl
  refine ⟨fun q => decodePorts_csrchk, exec_csrchk_invalid hl csr w, fun p => ⟨_, exec_csrchk_eq hl rfl, ?_⟩⟩
  rw [canAccess_iff, accessModeOk_iff, privilegeOk_iff, tvmOk_iff, counterOk_iff, inCounterRange_iff, timeCompareOk_iff,
    entropyOk_iff]

/-! ## What CSRCHK reads -/

/-- Of the Register File the checks read TVM, `mcounteren`, `scounteren` and STCE (R84). -/
theorem canAccess_congr (htvm : rf'.mstatus.tvm = rf.mstatus.tvm) (hm : rf'.mcounteren = rf.mcounteren)
    (hs : rf'.scounteren = rf.scounteren) (hstce : rf'.stce = rf.stce) :
    canAccess c rf' csr p w = canAccess c rf csr p w := by
  simp only [canAccess, tvmOk, counterOk, timeCompareOk, htvm, hm, hs, hstce]

/-- A 2-bit operand codes a privilege or is `0b10` (R11). -/
theorem privCode_or_invalid (b : BitVec 2) : (∃ p, b = privCode p) ∨ b = 0b10#2 := by
  cases h : privOfCode b with
  | some p => exact .inl ⟨p, privOfCode_eq_some.1 h⟩
  | none => exact .inr (privOfCode_eq_none.1 h)

/-! ## The pure operations -/

/-- An instruction that can answer carries nothing of the caller's. -/
theorem callerOf_of_mayAnswer (ha : mayAnswer i = true) : callerOf i = none := by
  cases i <;> cases ha <;> rfl

/-- What can answer but not enter a trap drives the result ports and does nothing else: no cancellation, no hook call, no next
program counter (R84, R87, R95). -/
theorem Shape.answer_of_pure (h : Shape s i t) (ha : mayAnswer i = true) (he : mayEnter i = false) :
    { t with out := s.out } = s ∧ t.out.cancelReservation = false ∧ t.out.extHookValid = false ∧
      t.out.nextPcValid = false := by
  cases h with
  | answered r hcancel hhook hnext => exact ⟨rfl, hcancel, hhook, hnext⟩
  | entered l tc base hc hv hb hi => simp [he] at hi
  | mretDone p hp hi => obtain rfl | ⟨⟨ctx, rfl⟩, -⟩ := hi <;> cases ha
  | sretDone hs hi => obtain rfl | ⟨⟨ctx, rfl⟩, -⟩ := hi <;> cases ha
  | checked a w ctx hi hx => simp [callerOf_of_mayAnswer ha] at hx

/-- An operation behind a privilege operand ends in no fault of its own: `0b10` is Refused (R71). -/
theorem withPriv_not_fault {b : BitVec 2} {k : Priv → Result} {f : Fault} (hk : ∀ p, k p ≠ .fault f) :
    withPriv b k ≠ .fault f := by
  obtain ⟨p, rfl⟩ | rfl := privCode_or_invalid b
  · simpa using hk p
  · simp

/-- What can answer but not enter a trap never ends in Fatal (R135). -/
theorem exec_pure_not_fault (ha : mayAnswer i = true) (he : mayEnter i = false) (f : Fault) : exec i s ≠ .fault f := by
  intro hf
  cases i <;> cases ha <;> cases he <;> obtain ⟨-, hf⟩ := whenLive_fault.1 hf
  case csrchk => exact withPriv_not_fault (by simp [answer]) hf
  case irqsel => split at hf <;> cases hf
  case irqres => refine withPriv_not_fault (fun p => ?_) hf; split <;> simp [answer]
  case excres => exact withPriv_not_fault (by simp [answer]) hf

/-- Settles O14: the privilege operand decides between an answer and the refusal, and the checks read only what is equal. -/
theorem csrchkSeesOnlyItsInputs : Obligations.CsrchkSeesOnlyItsInputs := by
  intro s t csr b w hs ht hcfg htvm hm hsc hstce
  refine ⟨?_, fun u hu => ?_⟩
  · obtain ⟨p, rfl⟩ | rfl := privCode_or_invalid b
    · have hsame : canAccess t.cfg t.rf csr p w = canAccess s.cfg s.rf csr p w := by
        rw [← hcfg, canAccess_congr htvm.symm hm.symm hsc.symm hstce.symm]
      rw [exec_csrchk_eq hs rfl, exec_csrchk_eq ht hsame]
      rfl
    · rw [exec_csrchk_invalid hs, exec_csrchk_invalid ht]
  · obtain ⟨-, hshape⟩ := exec_next_shape hu
    obtain ⟨hframe, hcancel, hhook, -⟩ := hshape.answer_of_pure rfl rfl
    exact ⟨hframe, hcancel, hhook⟩

/-- Settles O19: the four operations are those that can answer but not enter a trap. -/
theorem pureOperationsWriteNothing : Obligations.PureOperationsWriteNothing := by
  intro s t i hi
  have hpure : mayAnswer i = true ∧ mayEnter i = false := by
    obtain ⟨csr, b, w, rfl⟩ | ⟨m, rfl⟩ | ⟨b, rfl⟩ | ⟨code, b, rfl⟩ := hi <;> exact ⟨rfl, rfl⟩
  obtain ⟨ha, he⟩ := hpure
  exact ⟨exec_pure_not_fault ha he, fun h => (exec_next_shape h).2.answer_of_pure ha he⟩

/-! ## A check passes at every address it is not about -/

theorem tvmOk_of_ne (h : csr ≠ c.satpAddr) : tvmOk c rf csr p = true :=
  tvmOk_iff.2 fun ⟨hsatp, _⟩ => h hsatp

theorem counterOk_of_not_inCounterRange (h : inCounterRange c csr = false) : counterOk c rf csr p = true :=
  counterOk_iff.2 fun hin => by simp [h] at hin

theorem timeCompareOk_of_ne (hA : csr ≠ c.stimecmpA) (hB : csr ≠ c.stimecmpB) : timeCompareOk c rf csr p = true :=
  timeCompareOk_iff.2 fun h => (h.elim hA hB).elim

theorem entropyOk_of_ne (h : csr ≠ c.seedAddr) : entropyOk c csr p w = true :=
  entropyOk_iff.2 fun hseed => absurd hseed h

/-! ## The checks with the decided parameters -/

/-- By the decided table only a write to a CSR of class `0b11` is denied (R69, R76). -/
theorem accessModeOk_decided (h : c.accDecode = AccDecode.decided) :
    accessModeOk c csr w = !(w && decide (csrAcc csr = 0b11#2)) := by
  unfold accessModeOk
  rw [h]
  generalize csrAcc csr = acc
  revert acc
  cases w <;> decide

/-- The gated range is 0xC00 to 0xC1F (R79). -/
theorem inCounterRange_decided (hc : c.Decided) :
    inCounterRange c csr = decide (0xC00 ≤ csr.toNat ∧ csr.toNat ≤ 0xC1F) := by
  obtain ⟨-, hlo, hhi, hgated, -⟩ := hc
  rw [Bool.eq_iff_iff, inCounterRange_iff]
  simp [hlo, hhi, hgated]

/-- Below 0xC00 no address is read-only or a gated counter, and four checks are left. -/
theorem canAccess_below_counterSpace (hc : c.Decided) (h : csr.toNat < 0xC00) : canAccess c rf csr p w =
    (privilegeOk csr p && tvmOk c rf csr p && timeCompareOk c rf csr p && entropyOk c csr p w) := by
  have hclass : csrAcc csr ≠ 0b11#2 := by
    rw [← BitVec.toNat_inj.ne]
    simp only [csrAcc, BitVec.extractLsb'_toNat, Nat.shiftRight_eq_div_pow, BitVec.toNat_ofNat]
    omega
  have hmode : accessModeOk c csr w = true := by simp [accessModeOk_decided hc.1, hclass]
  have hout : inCounterRange c csr = false := by
    rw [inCounterRange_decided hc, decide_eq_false_iff_not]
    omega
  simp [canAccess, hmode, counterOk_of_not_inCounterRange hout]

/-- satp: at least Supervisor, and TVM clear at Supervisor (R77, R78). -/
theorem canAccess_satp (hc : c.Decided) : canAccess c rf 0x180#12 p w =
    (decide (p ≠ .user) && !(decide (p = .supervisor) && rf.mstatus.tvm)) := by
  rw [canAccess_below_counterSpace hc (by decide)]
  obtain ⟨-, -, -, -, hA, hB, hsatp, hseed, -⟩ := hc
  have hpriv : privilegeOk 0x180#12 p = decide (p ≠ .user) := by cases p <;> rfl
  have htime : timeCompareOk c rf 0x180#12 p = true := timeCompareOk_of_ne (by simp [hA]) (by simp [hB])
  have hentropy : entropyOk c 0x180#12 p w = true := entropyOk_of_ne (by simp [hseed])
  simp [hpriv, htime, hentropy, tvmOk, hsatp]

/-- Settles O10: satp at each privilege. -/
theorem satpIsClosedToSupervisorUnderTvm : Obligations.SatpIsClosedToSupervisorUnderTvm := by
  intro s w hl hc
  refine ⟨exec_csrchk_eq (p := .supervisor) hl ?_, exec_csrchk_eq (p := .machine) hl ?_,
    exec_csrchk_eq (p := .user) hl ?_⟩ <;> simp [canAccess_satp hc]

/-- A timer-compare CSR: Machine, or Supervisor behind both gates (R80). -/
theorem canAccess_timeCompare (hc : c.Decided) (hcsr : csr = 0x14D#12 ∨ csr = 0x15D#12) :
    canAccess c rf csr p w =
      (decide (p = .machine) || decide (p = .supervisor) && (rf.mcounteren.getLsbD 1 && rf.stce)) := by
  have hbelow : csr.toNat < 0xC00 := by obtain rfl | rfl := hcsr <;> decide
  have hpriv : privilegeOk csr p = decide (p ≠ .user) := by obtain rfl | rfl := hcsr <;> cases p <;> rfl
  have hother : csr ≠ 0x180#12 ∧ csr ≠ 0x015#12 := by obtain rfl | rfl := hcsr <;> decide
  rw [canAccess_below_counterSpace hc hbelow]
  obtain ⟨-, -, -, -, hA, hB, hsatp, hseed, -⟩ := hc
  have htvm : tvmOk c rf csr p = true := tvmOk_of_ne (hsatp ▸ hother.1)
  have hentropy : entropyOk c csr p w = true := entropyOk_of_ne (hseed ▸ hother.2)
  rw [← hA, ← hB] at hcsr
  cases p <;> simp [hpriv, htvm, hentropy, timeCompareOk, hcsr]

/-- Settles O12: the timer-compare CSRs at each privilege. -/
theorem timeCompareNeedsBothGates : Obligations.TimeCompareNeedsBothGates := by
  intro s w csr hl hc hcsr
  refine ⟨exec_csrchk_eq (p := .machine) hl ?_, exec_csrchk_eq (p := .supervisor) hl ?_,
    exec_csrchk_eq (p := .user) hl ?_⟩ <;> simp [canAccess_timeCompare hc hcsr]

/-- The entropy-source CSR: nothing but a Machine write (R81). -/
theorem canAccess_entropy (hc : c.Decided) : canAccess c rf 0x015#12 p w = (w && decide (p = .machine)) := by
  rw [canAccess_below_counterSpace hc (by decide)]
  obtain ⟨-, -, -, -, hA, hB, hsatp, hseed, -⟩ := hc
  have hpriv : privilegeOk 0x015#12 p = true := by cases p <;> rfl
  have htvm : tvmOk c rf 0x015#12 p = true := tvmOk_of_ne (by simp [hsatp])
  have htime : timeCompareOk c rf 0x015#12 p = true := timeCompareOk_of_ne (by simp [hA]) (by simp [hB])
  simp [hpriv, htvm, htime, entropyOk, hseed]

/-- Settles O13: the answer there is that of the operation. -/
theorem entropySourceTakesMachineWritesOnly : Obligations.EntropySourceTakesMachineWritesOnly :=
  fun _ _ _ hl hc => exec_csrchk_eq hl (canAccess_entropy hc)

/-! ## The counter CSRs (R79) -/

section CounterSpace
variable (hlo : 0xC00 ≤ csr.toNat) (hhi : csr.toNat ≤ 0xCFF)
include hlo hhi

/-- An address from 0xC00 to 0xCFF has class `0b11` and minimum privilege User (R68). -/
theorem csrFields_of_counterSpace : csrAcc csr = 0b11#2 ∧ csrMinPriv csr = 0b00#2 := by
  constructor <;> apply BitVec.eq_of_toNat_eq <;>
    simp only [csrAcc, csrMinPriv, BitVec.extractLsb'_toNat, Nat.shiftRight_eq_div_pow, BitVec.toNat_ofNat] <;> omega

/-- There a write is denied, and a read is decided by the counter check alone (R76, R79). -/
theorem canAccess_counterSpace (hc : c.Decided) : canAccess c rf csr p w = (!w && counterOk c rf csr p) := by
  obtain ⟨hclass, hmin⟩ := csrFields_of_counterSpace hlo hhi
  have hne : ∀ {a : BitVec 12}, csrAcc a ≠ 0b11#2 → csr ≠ a := fun ha h => ha (h ▸ hclass)
  obtain ⟨hacc, -, -, -, hA, hB, hsatp, hseed, -⟩ := hc
  have hmode : accessModeOk c csr w = !w := by simp [accessModeOk_decided hacc, hclass]
  have hpriv : privilegeOk csr p = true := by
    rw [privilegeOk, hmin]
    cases p <;> rfl
  have htvm : tvmOk c rf csr p = true := tvmOk_of_ne (hsatp ▸ hne (by decide))
  have htime : timeCompareOk c rf csr p = true :=
    timeCompareOk_of_ne (hA ▸ hne (by decide)) (hB ▸ hne (by decide))
  have hentropy : entropyOk c csr p w = true := entropyOk_of_ne (hseed ▸ hne (by decide))
  simp [canAccess, hmode, hpriv, htvm, htime, hentropy]

end CounterSpace

section Counter
variable {n : Nat} (hn : n < 32)
include hn

theorem toNat_counterAddr : (BitVec.ofNat 12 (0xC00 + n)).toNat = 0xC00 + n :=
  Nat.mod_eq_of_lt (by omega)

theorem toNat_counterHighAddr : (BitVec.ofNat 12 (0xC80 + n)).toNat = 0xC80 + n :=
  Nat.mod_eq_of_lt (by omega)

/-- Counter `n`: no write; a read from Machine, from Supervisor under `mcounteren[n]`, from User under both masks (R79). -/
theorem canAccess_counter (hc : c.Decided) : canAccess c rf (BitVec.ofNat 12 (0xC00 + n)) p w =
    (!w && (decide (p = .machine) ||
      rf.mcounteren.getLsbD n && (decide (p = .supervisor) || !c.haveS || rf.scounteren.getLsbD n))) := by
  have haddr := toNat_counterAddr hn
  have hin : inCounterRange c (BitVec.ofNat 12 (0xC00 + n)) = true := by
    rw [inCounterRange_decided hc, haddr, decide_eq_true_iff]
    omega
  have hindex : (0xC00 + n) % 32 = n := by omega
  rw [canAccess_counterSpace (by omega) (by omega) hc]
  congr 1
  rw [Bool.eq_iff_iff, counterOk_iff, haddr, hindex]
  simp [hin, or_assoc]

/-- The high half of counter `n` lies outside the gated range: open to every read (R79). -/
theorem canAccess_counterHigh (hc : c.Decided) : canAccess c rf (BitVec.ofNat 12 (0xC80 + n)) p w = !w := by
  have haddr := toNat_counterHighAddr hn
  have hout : inCounterRange c (BitVec.ofNat 12 (0xC80 + n)) = false := by
    rw [inCounterRange_decided hc, haddr, decide_eq_false_iff_not]
    omega
  rw [canAccess_counterSpace (by omega) (by omega) hc, counterOk_of_not_inCounterRange hout, Bool.and_true]

end Counter

/-- Settles O11: reads of a counter at each privilege, writes, and reads of its high half. -/
theorem counterReadsFollowEnableMasks : Obligations.CounterReadsFollowEnableMasks := by
  intro s n hl hc hn
  refine ⟨exec_csrchk_eq (p := .machine) hl ?_, exec_csrchk_eq (p := .supervisor) hl ?_,
    exec_csrchk_eq (p := .user) hl ?_, fun p => exec_csrchk_eq hl ?_,
    fun p => exec_csrchk_eq hl (canAccess_counterHigh hn hc)⟩ <;> simp [canAccess_counter hn hc]

end Sys2Proof.Machine
end

section
/-! IRQSEL: the selection as a search through the order of sources, and the answer for any mask (R85 to R88). -/

namespace Sys2Proof.Machine

variable {s : State} {m m' : Word}

/-! ## The order of sources -/

/-- The selection is the first source of the order whose bit is set: one test per source (R85, R86). -/
theorem selectPending_eq_find? (m : Word) :
    selectPending m = (sourceOrder.find? m.getLsbD).map (BitVec.ofNat 8) := by
  have hcons (b : Nat) (bs : List Nat) : ((b :: bs).find? m.getLsbD).map (BitVec.ofNat 8) =
      if m.getLsbD b then some (BitVec.ofNat 8 b) else (bs.find? m.getLsbD).map (BitVec.ofNat 8) := by
    cases h : m.getLsbD b <;> simp [h]
  simp only [sourceOrder, hcons]
  rfl

/-- Two masks with the same sources give the same selection. -/
theorem selectPending_congr (h : ∀ b ∈ sourceOrder, m'.getLsbD b = m.getLsbD b) :
    selectPending m' = selectPending m := by
  rw [selectPending_eq_find?, selectPending_eq_find?, List.find?_congr h]

/-- Every source lies below XLEN and in `IRQ_BITS` (R8, R28). -/
theorem source_in_masks (x : XLen) : ∀ b ∈ sourceOrder, x.mask.getLsbD b = true ∧ (0xAAA#64).getLsbD b = true := by
  cases x <;> decide

/-- Neither the width of the port nor `IRQ_BITS` hides a source, so the selection depends on the mask alone (R87, R88). -/
theorem selectPending_fit_and (c : Config) (m : Word) : selectPending (fit c m &&& 0xAAA#64) = selectPending m := by
  refine selectPending_congr fun b hb => ?_
  obtain ⟨hwidth, hirq⟩ := source_in_masks c.xlen b hb
  rw [BitVec.getLsbD_and, fit, BitVec.getLsbD_and, hwidth, hirq, Bool.and_true, Bool.and_true]

/-! ## The operation -/

/-- Command code 0x1 selects IRQSEL (R61, R64). -/
theorem decodePorts_irqsel {q : Ports} (h : q.cmd = 0x1#4) : decodePorts q = .irqsel q.irqMask := by
  simp [decodePorts, h]

/-- With the latch clear IRQSEL answers the selection from its mask and changes nothing else (R87). -/
theorem exec_irqsel_eq (hl : s.Live) (hirq : s.cfg.irqBits = 0xAAA#64) (m : Word) :
    exec (.irqsel m) s = .next { s with
      out := (selectPending m).elim {} fun code => { resValid := true, resCode := code } } := by
  show execIrqsel m s = _
  rw [execIrqsel, whenLive_live hl, hirq, selectPending_fit_and]
  cases selectPending m <;> rfl

/-- Settles O15: the answer for the mask, with the selection as the search through the order. -/
theorem irqselGivesFirstInOrder : Obligations.IrqselGivesFirstInOrder := by
  intro s m hl hirq
  refine ⟨fun q => decodePorts_irqsel, ?_⟩
  rw [exec_irqsel_eq hl hirq, selectPending_eq_find?]
  cases sourceOrder.find? m.getLsbD <;> rfl

end Sys2Proof.Machine
end

section
/-! IRQRES and EXCRES: the resolvers as R92 and R94 give them, what they can answer (R96), and that without Supervisor nothing is
taken to it (R132). -/

namespace Sys2Proof.Machine

variable {s t : State} {m : Word} {p : Priv}

/-! ## Selecting from candidates -/

/-- A mask whose source bits a predicate describes selects the first source of the order that has it. -/
theorem selectPending_eq_find?_of_bits {q : Nat → Bool} (h : ∀ b ∈ sourceOrder, m.getLsbD b = q b) :
    selectPending m = (sourceOrder.find? q).map (BitVec.ofNat 8) := by
  rw [selectPending_eq_find?, List.find?_congr h]

/-- `IRQ_BITS` holds no bit but the sources (R8): a mask within it that selects nothing is empty. -/
theorem eq_zero_of_selectPending_eq_none (hm : m &&& 0xAAA#64 = m) (h : selectPending m = none) : m = 0#64 := by
  have hsource : ∀ b < 64, (0xAAA#64).getLsbD b = true → b ∈ sourceOrder := by decide
  rw [← hm]
  refine BitVec.eq_of_getLsbD_eq fun b hb => ?_
  rw [BitVec.getLsbD_and, BitVec.getLsbD_zero]
  cases hirq : (0xAAA#64).getLsbD b with
  | false => exact Bool.and_false _
  | true => rw [selectPending_eq_none h b (hsource b hb hirq), Bool.false_and]

/-- The selection from such a mask finds a source exactly when the mask is not empty. -/
theorem selectPending_isSome (hm : m &&& 0xAAA#64 = m) : (selectPending m).isSome = decide (m ≠ 0#64) := by
  cases h : selectPending m with
  | none => simp [eq_zero_of_selectPending_eq_none hm h]
  | some code =>
    have hne : m ≠ 0#64 := by rintro rfl; cases h
    simp [hne]

/-- One branch of the resolver (R92): a visible set that is not empty answers, and only then is the rest not looked at. -/
theorem visibleSelection_eq_or (hm : m &&& 0xAAA#64 = m) (visible : Bool) {α : Type} (f : BitVec 8 → α) (rest : Option α) :
    (if visible && decide (m ≠ 0#64) then (selectPending m).map f else rest) =
      ((if visible then selectPending m else none).map f).or rest := by
  rw [← selectPending_isSome hm]
  cases visible <;> cases selectPending m <;> rfl

/-! ## Candidates and visibility, as the order's search states them (R90, R91) -/

/-- A bit of the effective delegation mask (R27). -/
theorem getLsbD_midelegEff (c : Config) (rf : RegFile) (b : Nat) :
    (midelegEff c rf).getLsbD b = (c.haveS && rf.mideleg.getLsbD b) := by
  cases hS : c.haveS <;> simp [midelegEff, hS]

section Candidates
variable (hirq : s.cfg.irqBits = 0xAAA#64)
include hirq

/-- `IRQ_BITS` hides no source that is pending and enabled (R90, R124). -/
theorem getLsbD_pendingEnabled {b : Nat} (hb : b ∈ sourceOrder) :
    (pendingEnabled s.cfg s.rf).getLsbD b = (s.rf.mip.getLsbD b && s.rf.mie.getLsbD b) := by
  obtain ⟨-, hbit⟩ := source_in_masks s.cfg.xlen b hb
  rw [pendingEnabled, hirq, BitVec.getLsbD_and, BitVec.getLsbD_and, hbit, Bool.and_true]

/-- A source is a Machine-owned candidate when it waits undelegated (R90). -/
theorem getLsbD_machineOwned {b : Nat} (hb : b ∈ sourceOrder) :
    (machineOwned s.cfg s.rf).getLsbD b = sourceWaits s false b := by
  obtain ⟨-, hbit⟩ := source_in_masks s.cfg.xlen b hb
  rw [machineOwned, BitVec.getLsbD_and, BitVec.getLsbD_not, getLsbD_pendingEnabled hirq hb, getLsbD_midelegEff,
    decide_eq_true (BitVec.lt_of_getLsbD hbit), Bool.true_and, sourceWaits, beq_false]

/-- A source is a Supervisor-owned candidate when it waits delegated (R90). -/
theorem getLsbD_supervisorOwned {b : Nat} (hb : b ∈ sourceOrder) :
    (supervisorOwned s.cfg s.rf).getLsbD b = sourceWaits s true b := by
  rw [supervisorOwned, BitVec.getLsbD_and, getLsbD_pendingEnabled hirq hb, getLsbD_midelegEff, sourceWaits, beq_true]

/-- Whatever part of the candidates a mask keeps lies within `IRQ_BITS`. -/
theorem pendingEnabled_and_within (d : Word) :
    (pendingEnabled s.cfg s.rf &&& d) &&& 0xAAA#64 = pendingEnabled s.cfg s.rf &&& d := by
  have hself : pendingEnabled s.cfg s.rf &&& 0xAAA#64 = pendingEnabled s.cfg s.rf := by
    rw [pendingEnabled, hirq, BitVec.and_assoc, BitVec.and_self]
  rw [BitVec.and_assoc, BitVec.and_comm d, ← BitVec.and_assoc, hself]

end Candidates

/-- Machine-owned candidates are hidden at M without MIE, and nowhere else (R91). -/
theorem machineVisible_iff {rf : RegFile} : machineVisible rf p = true ↔ ¬(p = .machine ∧ rf.mstatus.mie = false) := by
  cases p <;> simp [machineVisible, privLt, privCode]

/-- Supervisor-owned candidates are seen at U, and at S with SIE (R91). -/
theorem supervisorVisible_iff {rf : RegFile} :
    supervisorVisible rf p = true ↔ p = .user ∨ p = .supervisor ∧ rf.mstatus.sie = true := by
  simp only [supervisorVisible, Bool.or_eq_true, Bool.and_eq_true, decide_eq_true_eq]

/-! ## IRQRES -/

/-- The search of R129 tries what waits undelegated, if that is visible, and then what waits delegated, if that is (R92, R125). -/
theorem firstInterrupt_eq_or (s : State) (p : Priv) :
    firstInterrupt s p =
      ((if machineVisible s.rf p then sourceOrder.find? (sourceWaits s false) else none).map (·, .machine)).or
        ((if supervisorVisible s.rf p then sourceOrder.find? (sourceWaits s true) else none).map (·, .supervisor)) := by
  simp only [machineVisible_iff, supervisorVisible_iff, ite_not, firstInterrupt]
  split <;> simp only [*] <;> rfl

/-- The resolver is that search. -/
theorem resolveInterrupt_eq_firstInterrupt (hirq : s.cfg.irqBits = 0xAAA#64) (p : Priv) :
    resolveInterrupt s.cfg s.rf p = (firstInterrupt s p).map (Prod.map (BitVec.ofNat 8) id) := by
  have hM : selectPending (machineOwned s.cfg s.rf) = (sourceOrder.find? (sourceWaits s false)).map (BitVec.ofNat 8) :=
    selectPending_eq_find?_of_bits fun _ => getLsbD_machineOwned hirq
  have hS : selectPending (supervisorOwned s.cfg s.rf) = (sourceOrder.find? (sourceWaits s true)).map (BitVec.ofNat 8) :=
    selectPending_eq_find?_of_bits fun _ => getLsbD_supervisorOwned hirq
  have hMirq : machineOwned s.cfg s.rf &&& 0xAAA#64 = machineOwned s.cfg s.rf := pendingEnabled_and_within hirq _
  have hSirq : supervisorOwned s.cfg s.rf &&& 0xAAA#64 = supervisorOwned s.cfg s.rf := pendingEnabled_and_within hirq _
  rw [resolveInterrupt, visibleSelection_eq_or hMirq, visibleSelection_eq_or hSirq, Option.or_none, hM, hS,
    firstInterrupt_eq_or, Option.map_or]
  congr 1 <;> split <;> simp only [Option.map_map, Option.map_none] <;> rfl

/-- Command code 0x2 selects IRQRES (R61, R64). -/
theorem decodePorts_irqres {q : Ports} (h : q.cmd = 0x2#4) : decodePorts q = .irqres q.privArg := by
  simp [decodePorts, h]

/-- With `priv_arg` = `0b10` it is Refused (R71). -/
theorem exec_irqres_invalid (hl : s.Live) : exec (.irqres 0b10#2) s = .refused .privilegeOperand :=
  (whenLive_live hl _).trans (withPriv_invalid _)

/-- With the latch clear IRQRES answers the resolver for the privilege its operand codes and changes nothing else (R89, R95). -/
theorem exec_irqres_eq (hl : s.Live) (p : Priv) :
    exec (.irqres (privCode p)) s = .next { s with
      out := (resolveInterrupt s.cfg s.rf p).elim {} fun a =>
        { resValid := true, resCode := a.1, resPriv := privCode a.2 } } := by
  show execIrqres (privCode p) s = _
  rw [execIrqres, whenLive_live hl, withPriv_privCode]
  cases resolveInterrupt s.cfg s.rf p <;> rfl

/-- Settles O16: the answer of the operation, with the resolver as the search through the order. -/
theorem irqresGivesFirstVisible : Obligations.IrqresGivesFirstVisible := by
  intro s hl hirq
  refine ⟨fun q => decodePorts_irqres, exec_irqres_invalid hl, fun p => ?_⟩
  rw [exec_irqres_eq hl, resolveInterrupt_eq_firstInterrupt hirq]
  cases firstInterrupt s p <;> rfl

/-- When IRQRES selects an interrupt, its resolver found one, and the target is on `res_priv`. -/
theorem resolved_of_exec_irqres (h : exec (.irqres (privCode p)) s = .next t) (hv : t.out.resValid = true) :
    ∃ code tgt, resolveInterrupt s.cfg s.rf p = some (code, tgt) ∧ t.out.resPriv = privCode tgt := by
  obtain ⟨hl, -⟩ := whenLive_next.1 h
  rw [exec_irqres_eq hl] at h
  obtain rfl := Host.Outcome.next.inj h
  cases hr : resolveInterrupt s.cfg s.rf p with
  | none => simp [hr] at hv
  | some a => exact ⟨a.1, a.2, rfl, by simp⟩

/-- The code of M is the largest (R11). -/
theorem privCode_le_machine (p : Priv) : (privCode p).toNat ≤ (0b11#2).toNat := by cases p <;> decide

/-- Settles O18: the resolver targets M, or else S with Supervisor configured and the privilege below M. -/
theorem irqresTargetsAreSound : Obligations.IrqresTargetsAreSound := by
  intro s t p h hv
  obtain ⟨code, tgt, hr, ht⟩ := resolved_of_exec_irqres h hv
  rw [ht]
  obtain rfl | ⟨rfl, hS, hbelow⟩ := resolveInterrupt_cases hr
  · exact ⟨.inl rfl, fun _ => rfl, privCode_le_machine p, fun hsup => by cases hsup⟩
  · refine ⟨.inr rfl, fun hno => ?_, ?_, fun _ => hbelow⟩
    · simp [hS] at hno
    · cases p with
      | machine => exact absurd rfl hbelow
      | user | supervisor => decide

/-! ## EXCRES -/

/-- Command code 0x3 selects EXCRES (R61, R64). -/
theorem decodePorts_excres {q : Ports} (h : q.cmd = 0x3#4) : decodePorts q = .excres q.code q.privArg := by
  simp [decodePorts, h]

/-- With `priv_arg` = `0b10` it is Refused (R71). -/
theorem exec_excres_invalid (hl : s.Live) (code : BitVec 8) :
    exec (.excres code 0b10#2) s = .refused .privilegeOperand :=
  (whenLive_live hl _).trans (withPriv_invalid _)

/-- With the latch clear EXCRES answers the resolver's target and changes nothing else (R93, R95). -/
theorem exec_excres_eq (hl : s.Live) (code : BitVec 8) (p : Priv) :
    exec (.excres code (privCode p)) s = .next { s with
      out := { resPriv := privCode (resolveException s.cfg s.rf code p) } } :=
  (whenLive_live hl _).trans (withPriv_privCode _ _)

/-- Settles O17: the answer of the operation, with the resolver and the delegation bit as R94 and R93 give them. -/
theorem excresGivesDelegatedTarget : Obligations.ExcresGivesDelegatedTarget := by
  intro s code hl
  refine ⟨fun q => decodePorts_excres, exec_excres_invalid hl code, fun p => ?_⟩
  rw [exec_excres_eq hl, resolveException_eq]
  simp only [exceptionDelegated_iff, and_assoc, apply_ite privCode]
  rfl

/-! ## Without Supervisor -/

/-- Settles O43: of the five shapes of a completed instruction, an answer does not name S, a trap entry has passed the check of
`HAVE_S`, MRET and the caller's CSRCHK drive 0, and SRET needs `HAVE_S`. -/
theorem noSupervisorTrapWithoutSupervisor : Obligations.NoSupervisorTrapWithoutSupervisor := by
  intro s t i hno h
  have hzero : (0#2) ≠ 0b01#2 := by decide
  have hmachine : privCode .machine ≠ 0b01#2 := by decide
  obtain ⟨-, hshape⟩ := exec_next_shape h
  cases hshape
  case answered r _ _ _ _ hhook _ hres _ => exact ⟨hres hno, hhook.trans_ne hzero, rfl, rfl, rfl⟩
  case entered l tc base hcheck _ hbase _ =>
    cases l with
    | machine => exact ⟨hbase.elim (·.trans_ne hzero) (·.trans_ne hmachine), hmachine, rfl, rfl, rfl⟩
    | supervisor =>
      obtain ⟨-, -, hsup⟩ := checkEntry_ok.1 hcheck
      obtain ⟨hS, -⟩ := hsup rfl
      simp [hno] at hS
  case mretDone => exact ⟨hzero, hzero, rfl, rfl, rfl⟩
  case sretDone hS _ => simp [hno] at hS
  case checked => exact ⟨hzero, hzero, rfl, rfl, rfl⟩

end Sys2Proof.Machine
end

section
/-! Trap entry: the checks of TRAPENT, its commit, and the two composite operations that resolve a target and then enter it (R97
to R111). -/

namespace Sys2Proof.Machine

variable {s t : State} {c : Config} {rf : RegFile} {l : TrapLevel} {f : Fault} {tgt : BitVec 2} {isIntr : Bool}
  {code : BitVec 8} {pc : Word} {info : Option Word} {ext : Option Nat} {tc : TrapContext} {base : Results}

/-! ## The checks of a trap entry (R98) -/

/-- MODE is reserved when bit 1 of the level's trap-vector register is set (R26, R98). -/
theorem checkMode_eq (rf : RegFile) (l : TrapLevel) :
    checkMode rf l = if (tvecOf rf l).getLsbD 1 then .error .tvecMode else .ok l := by
  rw [checkMode, modeReserved_iff]

/-- A trap never enters User (R99). -/
theorem checkEntry_user : checkEntry c rf 0b00#2 = .error .targetUser := rfl

/-- The code `0b10` is checked before anything else (R71). -/
theorem checkEntry_invalid : checkEntry c rf 0b10#2 = .error .privInvalid := rfl

/-- The checks of a Supervisor target, in their order (R98, R100). -/
theorem checkEntry_supervisor : checkEntry c rf 0b01#2 =
    if !c.haveS then .error .sTargetNoS
    else if rf.curPrivilege = .machine then .error .sppFromMachine
    else checkMode rf .supervisor := rfl

/-- The one check of a Machine target. -/
theorem checkEntry_machine : checkEntry c rf 0b11#2 = checkMode rf .machine := rfl

/-- The state lets a trap enter a level: any state lets it enter M, and S is entered with Supervisor configured and from below
M (R96 (5), R100). -/
abbrev State.Admits (s : State) (l : TrapLevel) : Prop :=
  l = .supervisor → s.cfg.haveS = true ∧ s.rf.curPrivilege ≠ .machine

theorem admits_machine : s.Admits .machine := fun h => by cases h

/-- At a level the state admits, only the check of MODE is left (R96 (5)). -/
theorem checkEntry_of_admits (h : s.Admits l) :
    checkEntry s.cfg s.rf (privCode (trapLevelPriv l)) =
      if (tvecOf s.rf l).getLsbD 1 then .error .tvecMode else .ok l := by
  rw [← checkMode_eq]
  cases l with
  | machine => exact checkEntry_machine
  | supervisor =>
    obtain ⟨hS, hbelow⟩ := h rfl
    simp [trapLevelPriv, privCode, checkEntry_supervisor, hS, hbelow]

/-! ## Taking a trap -/

/-- The state a trap entry at a level leaves (R97). -/
abbrev State.enter (s : State) (l : TrapLevel) (tc : TrapContext) (base : Results) : State :=
  (s.withRf (commitTrap s.cfg l tc s.rf)).withOut (entryResults s.cfg s.rf l tc base)

theorem takeTrap_of_error (h : checkEntry s.cfg s.rf tgt = .error f) : takeTrap tgt tc base s = .fault f := by
  rw [takeTrap, h]

/-- At a level the state admits, a trap entry completes unless MODE is reserved. -/
theorem takeTrap_of_admits (h : s.Admits l) : takeTrap (privCode (trapLevelPriv l)) tc base s =
    if (tvecOf s.rf l).getLsbD 1 then .fault .tvecMode else .next (s.enter l tc base) := by
  rw [takeTrap, checkEntry_of_admits h]
  cases (tvecOf s.rf l).getLsbD 1 <;> rfl

theorem trapLevelCode_injective {l l' : TrapLevel} (h : privCode (trapLevelPriv l) = privCode (trapLevelPriv l')) :
    l = l' := by
  revert h
  cases l <;> cases l' <;> decide

/-- A trap entry that completes enters the level its target codes. -/
theorem enter_of_takeTrap (h : takeTrap (privCode (trapLevelPriv l)) tc base s = .next t) : t = s.enter l tc base := by
  obtain ⟨l', hcheck, rfl⟩ := takeTrap_next.1 h
  obtain ⟨htgt, -⟩ := checkEntry_ok.1 hcheck
  rw [trapLevelCode_injective htgt]

/-- The only Fatal outcome left at such a level (R96 (5), R98). -/
theorem takeTrap_fault_of_admits (h : s.Admits l)
    (hf : takeTrap (privCode (trapLevelPriv l)) tc base s = .fault f) : f = .tvecMode := by
  rw [takeTrap_of_admits h] at hf
  split at hf <;> cases hf
  rfl

/-- A level the state admits is at or above the current privilege (R111). -/
theorem curPrivilege_le_of_admits (h : s.Admits l) :
    (privCode s.rf.curPrivilege).toNat ≤ (privCode (trapLevelPriv l)).toNat := by
  cases l with
  | machine => exact privCode_le_machine _
  | supervisor =>
    obtain ⟨-, hbelow⟩ := h rfl
    cases hp : s.rf.curPrivilege with
    | machine => exact absurd hp hbelow
    | user | supervisor => decide

/-- A trap entry leaves the privilege at its target, which the hook is told and which is not below the old one (R104, R111). -/
theorem takeTrap_privilege (h : takeTrap tgt tc base s = .next t) :
    privCode t.rf.curPrivilege = tgt ∧ t.out.extHookPriv = privCode t.rf.curPrivilege ∧
      (privCode s.rf.curPrivilege).toNat ≤ (privCode t.rf.curPrivilege).toNat := by
  obtain ⟨l, hcheck, rfl⟩ := takeTrap_next.1 h
  obtain ⟨rfl, -, hadmits⟩ := checkEntry_ok.1 hcheck
  have hle := curPrivilege_le_of_admits hadmits
  cases l <;> exact ⟨rfl, rfl, hle⟩

/-! ## What an entry records, as the operands give it -/

theorem infoOrZero_eq (c : Config) (o : Option Word) : infoOrZero c o = (o.map (fit c)).getD 0#64 := by
  cases o <;> rfl

theorem causeCode_eq (code : BitVec 8) : causeCode code = BitVec.ofNat 63 code.toNat := (BitVec.ofNat_toNat _ _).symm

/-- Without an interrupt the handler is entered at the base (R105). -/
theorem tvecAddr_exception (c : Config) (v : Word) (code : BitVec 8) :
    tvecAddr c v false code = fit c v &&& ~~~3#64 := by
  simp [tvecAddr, tvecBase]

/-- The offset of a vectored interrupt is four times its code (R105). -/
theorem vectorOffset_eq (code : BitVec 8) : code.setWidth 64 <<< 2 = BitVec.ofNat 64 (4 * code.toNat) := by
  apply BitVec.eq_of_toNat_eq
  simp [Nat.shiftLeft_eq, Nat.mul_comm]

/-- The handler's address when MODE is not reserved (R105). -/
theorem tvecAddr_eq {v : Word} (h : v.getLsbD 1 = false) (c : Config) (isIntr : Bool) (code : BitVec 8) :
    tvecAddr c v isIntr code =
      if v.getLsbD 0 = true ∧ isIntr = true then fit c ((fit c v &&& ~~~3#64) + BitVec.ofNat 64 (4 * code.toNat))
      else fit c v &&& ~~~3#64 := by
  simp only [tvecAddr, modeVectored_iff, h, vectorOffset_eq, tvecBase, and_true]

/-- The ports of an entry with its operands written out (R104 to R106). -/
theorem entryResults_eq (h : (tvecOf rf l).getLsbD 1 = false) (tc : TrapContext) (base : Results) :
    entryResults c rf l tc base = { base with
      nextPcValid := true
      nextPc :=
        if (tvecOf rf l).getLsbD 0 = true ∧ tc.isIntr = true
        then fit c ((fit c (tvecOf rf l) &&& ~~~3#64) + BitVec.ofNat 64 (4 * tc.code.toNat))
        else fit c (tvecOf rf l) &&& ~~~3#64
      cancelReservation := true
      extHookValid := true
      extHookPriv := privCode (trapLevelPriv l)
      extHookPc := fit c tc.pc
      extHookPayloadValid := tc.ext.isSome
      extHookPayload := (tc.ext.map (· % 2 ^ c.extW)).getD 0 } := by
  rw [entryResults, tvecAddr_eq h]
  cases tc.ext <;> rfl

/-! ## TRAPENT -/

theorem exec_trapent_live (hl : s.Live) : exec (.trapent tgt isIntr code pc info ext) s =
    takeTrap tgt ⟨isIntr, code, pc, info, ext⟩ {} s := whenLive_live hl _

theorem exec_trapent_of_error (hl : s.Live) (h : checkEntry s.cfg s.rf tgt = .error f) :
    exec (.trapent tgt isIntr code pc info ext) s = .fault f :=
  (exec_trapent_live hl).trans (takeTrap_of_error h)

/-- TRAPENT to a level the state admits completes when MODE of its trap-vector register is not reserved. -/
theorem exec_trapent_of_admits (hl : s.Live) (h : s.Admits l) (hmode : (tvecOf s.rf l).getLsbD 1 = false) :
    exec (.trapent (privCode (trapLevelPriv l)) isIntr code pc info ext) s =
      .next (s.enter l ⟨isIntr, code, pc, info, ext⟩ {}) := by
  rw [exec_trapent_live hl, takeTrap_of_admits h, hmode]
  rfl

/-- Settles O22: each clause is the first check that fails; a Fatal cycle drives none of the three ports. -/
theorem trapentFatalChecksInOrder : Obligations.TrapentFatalChecksInOrder := by
  intro s isIntr code pc info ext hl
  refine ⟨exec_trapent_of_error hl checkEntry_invalid, exec_trapent_of_error hl checkEntry_user,
    fun hS => exec_trapent_of_error hl ?_, fun hS hM => exec_trapent_of_error hl ?_,
    fun hS hM hmode => exec_trapent_of_error hl ?_, fun hmode => exec_trapent_of_error hl ?_, fun tgt f h => ?_⟩
  · simp [checkEntry_supervisor, hS]
  · simp [checkEntry_supervisor, hS, hM]
  · simp [checkEntry_supervisor, hS, hM, checkMode_eq, tvecOf, hmode]
  · simp [checkEntry_machine, checkMode_eq, tvecOf, hmode]
  · rw [h]; exact ⟨rfl, rfl, rfl⟩

/-- Settles O20: M is admitted from every privilege, and the commit with its operands written out. -/
theorem trapentCommitsToMachine : Obligations.TrapentCommitsToMachine := by
  intro s isIntr code pc info ext hl hmode
  refine (exec_trapent_of_admits (l := .machine) hl admits_machine hmode).trans ?_
  rw [State.enter, entryResults_eq (l := .machine) hmode, commitTrap, commitMachine, infoOrZero_eq, causeCode_eq]
  rfl

/-- Settles O21: S is admitted, and below M the old privilege is S exactly when it is not U. -/
theorem trapentCommitsToSupervisor : Obligations.TrapentCommitsToSupervisor := by
  intro s isIntr code pc info ext hl hS hbelow hmode
  have hspp : decide (s.rf.curPrivilege = .supervisor) = decide (s.rf.curPrivilege ≠ .user) := by
    cases hp : s.rf.curPrivilege with
    | machine => exact absurd hp hbelow
    | user | supervisor => rfl
  refine (exec_trapent_of_admits (l := .supervisor) hl (fun _ => ⟨hS, hbelow⟩) hmode).trans ?_
  rw [State.enter, entryResults_eq (l := .supervisor) hmode, commitTrap, commitSupervisor, Mstatus.enterSupervisor, hspp,
    infoOrZero_eq, causeCode_eq]
  rfl

/-- A TRAPENT to M that completes is an entry at M. -/
theorem enter_of_exec_trapent_machine (h : exec (.trapent 0b11#2 isIntr code pc info ext) s = .next t) :
    t = s.enter .machine ⟨isIntr, code, pc, info, ext⟩ {} := by
  obtain ⟨-, h⟩ := whenLive_next.1 h
  exact enter_of_takeTrap (l := .machine) h

/-- Settles O29: the second entry saves what the first one left, MIE clear and the privilege M. -/
theorem nestedMachineTrapOverwrites : Obligations.NestedMachineTrapOverwrites := by
  rintro s t u _ _ k₁ k₂ c₁ c₂ pc₁ pc₂ f₁ f₂ e₁ e₂ rfl rfl hfirst hsecond
  obtain rfl := enter_of_exec_trapent_machine hfirst
  obtain rfl := enter_of_exec_trapent_machine hsecond
  exact ⟨rfl, rfl, rfl, congrArg (Cause.mk k₂) (causeCode_eq c₂), infoOrZero_eq _ f₂⟩

/-! ## EXCTAKE -/

/-- Command code 0x7 selects EXCTAKE (R61, R64, R67). -/
theorem decodePorts_exctake {q : Ports} (h : q.cmd = 0x7#4) : decodePorts q =
    .exctake q.code q.pc (optPort q.infoValid q.info) (optPort q.extValid q.extPayload) := by
  simp [decodePorts, h]

theorem exec_exctake_live (hl : s.Live) : exec (.exctake code pc info ext) s = takeException code pc info ext s :=
  whenLive_live hl _

/-- When the resolver answers S (R93, R94). -/
theorem resolveException_eq_supervisor {p : Priv} : resolveException c rf code p = .supervisor ↔
    c.haveS = true ∧ code.toNat < c.xlen.bits ∧ rf.medeleg.getLsbD code.toNat = true ∧ p ≠ .machine := by
  simp [resolveException_eq, exceptionDelegated_iff, and_assoc]

/-- The resolver answers M or S. -/
theorem resolveException_level (c : Config) (rf : RegFile) (code : BitVec 8) (p : Priv) :
    ∃ l, resolveException c rf code p = trapLevelPriv l := by
  rw [resolveException_eq]
  split
  · exact ⟨.supervisor, rfl⟩
  · exact ⟨.machine, rfl⟩

/-- The state admits what the resolver answers at the current privilege (R96 (5)). -/
theorem admits_of_resolveException (h : resolveException s.cfg s.rf code s.rf.curPrivilege = trapLevelPriv l) :
    s.Admits l := by
  rintro rfl
  obtain ⟨hS, -, -, hbelow⟩ := resolveException_eq_supervisor.1 h
  exact ⟨hS, hbelow⟩

/-- Taking an exception, by the level it resolves to (R108). -/
theorem takeException_eq (h : resolveException s.cfg s.rf code s.rf.curPrivilege = trapLevelPriv l) :
    takeException code pc info ext s =
      if (tvecOf s.rf l).getLsbD 1 then .fault .tvecMode
      else .next (s.enter l ⟨false, code, pc, info, ext⟩ { resPriv := privCode (trapLevelPriv l) }) := by
  rw [takeException, h, takeTrap_of_admits (admits_of_resolveException h)]

theorem exec_exctake_reserved (hl : s.Live)
    (h : resolveException s.cfg s.rf code s.rf.curPrivilege = trapLevelPriv l)
    (hmode : (tvecOf s.rf l).getLsbD 1 = true) : exec (.exctake code pc info ext) s = .fault .tvecMode := by
  rw [exec_exctake_live hl, takeException_eq h, hmode]
  rfl

theorem exec_exctake_enter (hl : s.Live)
    (h : resolveException s.cfg s.rf code s.rf.curPrivilege = trapLevelPriv l)
    (hmode : (tvecOf s.rf l).getLsbD 1 = false) : exec (.exctake code pc info ext) s =
      .next (s.enter l ⟨false, code, pc, info, ext⟩ { resPriv := privCode (trapLevelPriv l) }) := by
  rw [exec_exctake_live hl, takeException_eq h, hmode]
  rfl

theorem takeException_fault (h : takeException code pc info ext s = .fault f) : f = .tvecMode := by
  obtain ⟨l, hlevel⟩ := resolveException_level s.cfg s.rf code s.rf.curPrivilege
  rw [takeException, hlevel] at h
  exact takeTrap_fault_of_admits (admits_of_resolveException hlevel) h

/-- Settles O24: the checks do not see what a composite drives besides, so both forms fail together or enter alike. -/
theorem exctakeChainsResolverAndEntry : Obligations.ExctakeChainsResolverAndEntry := by
  intro s code pc info ext hl
  refine ⟨fun q => decodePorts_exctake, fun f h => ?_,
    privCode (resolveException s.cfg s.rf code s.rf.curPrivilege), ?_, ?_⟩
  · rw [h]
    rw [exec_exctake_live hl] at h
    exact ⟨takeException_fault h, rfl⟩
  · rw [exec_excres_eq hl]
    rfl
  · rw [exec_exctake_live hl, exec_trapent_live hl, takeException, takeTrap, takeTrap]
    cases checkEntry s.cfg s.rf (privCode (resolveException s.cfg s.rf code s.rf.curPrivilege)) <;> rfl

/-- Settles O25: the level the code resolves to, and the entry at it with its operands written out. -/
theorem exctakeEntersAtResolvedTarget : Obligations.ExctakeEntersAtResolvedTarget := by
  intro s code pc info ext hl toS
  have hsupervisor (h : toS) : resolveException s.cfg s.rf code s.rf.curPrivilege = trapLevelPriv .supervisor :=
    resolveException_eq_supervisor.2 h
  have hmachine (h : ¬toS) : resolveException s.cfg s.rf code s.rf.curPrivilege = trapLevelPriv .machine := by
    obtain ⟨l, hlevel⟩ := resolveException_level s.cfg s.rf code s.rf.curPrivilege
    cases l with
    | machine => exact hlevel
    | supervisor => exact absurd (resolveException_eq_supervisor.1 hlevel) h
  have hcause := congrArg (Cause.mk false) (causeCode_eq code)
  have hinfo := infoOrZero_eq s.cfg info
  refine ⟨fun h hmode => exec_exctake_reserved hl (hsupervisor h) hmode,
    fun h hmode => exec_exctake_reserved hl (hmachine h) hmode,
    fun h hmode => ⟨_, exec_exctake_enter hl (hsupervisor h) hmode, ?_⟩,
    fun h hmode => ⟨_, exec_exctake_enter hl (hmachine h) hmode, ?_⟩⟩
  · exact ⟨rfl, hcause, rfl, hinfo, rfl, rfl, rfl, rfl, rfl, tvecAddr_exception ..⟩
  · exact ⟨rfl, hcause, rfl, hinfo, rfl, rfl, rfl, rfl, rfl, tvecAddr_exception ..⟩

/-! ## IRQTAKE -/

/-- Command code 0x8 selects IRQTAKE (R61, R64). -/
theorem decodePorts_irqtake {q : Ports} (h : q.cmd = 0x8#4) : decodePorts q = .irqtake q.pc := by
  simp [decodePorts, h]

theorem exec_irqtake_live (hl : s.Live) : exec (.irqtake pc) s = takeInterrupt pc s := whenLive_live hl _

theorem takeInterrupt_of_none (h : resolveInterrupt s.cfg s.rf s.rf.curPrivilege = none) :
    takeInterrupt pc s = .next (s.withOut {}) := by
  simp only [takeInterrupt, h, answer]

theorem takeInterrupt_of_some {p : Priv} (h : resolveInterrupt s.cfg s.rf s.rf.curPrivilege = some (code, p)) :
    takeInterrupt pc s = takeTrap (privCode p) ⟨true, code, pc, none, none⟩
      { resValid := true, resCode := code, resPriv := privCode p } s := by
  simp only [takeInterrupt, h]

/-- The resolver answers a level, and one the state admits at the current privilege (R96 (5)). -/
theorem resolveInterrupt_admits {p : Priv} (h : resolveInterrupt s.cfg s.rf s.rf.curPrivilege = some (code, p)) :
    ∃ l, p = trapLevelPriv l ∧ s.Admits l := by
  obtain rfl | ⟨rfl, hS, hbelow⟩ := resolveInterrupt_cases h
  · exact ⟨.machine, rfl, admits_machine⟩
  · exact ⟨.supervisor, rfl, fun _ => ⟨hS, hbelow⟩⟩

theorem takeInterrupt_fault (h : takeInterrupt pc s = .fault f) : f = .tvecMode := by
  cases hr : resolveInterrupt s.cfg s.rf s.rf.curPrivilege with
  | none => rw [takeInterrupt_of_none hr] at h; cases h
  | some a =>
    rw [takeInterrupt_of_some hr] at h
    obtain ⟨l, hlevel, hadmits⟩ := resolveInterrupt_admits hr
    rw [hlevel] at h
    exact takeTrap_fault_of_admits hadmits h

/-- An IRQTAKE that completes leaves the pending and the enabled sources as they were (R37, R126). -/
theorem exec_irqtake_mip_mie (h : exec (.irqtake pc) s = .next t) : t.rf.mip = s.rf.mip ∧ t.rf.mie = s.rf.mie := by
  obtain ⟨-, -, -, hmip, hmie, -⟩ := noInstructionWritesGatesOrMasks s t _ h
  exact ⟨hmip, hmie⟩

/-- What the search of R129 selects is what the resolver answers. -/
theorem resolved_of_firstInterrupt {n : Nat} {p : Priv} (hirq : s.cfg.irqBits = 0xAAA#64)
    (h : firstInterrupt s s.rf.curPrivilege = some (n, p)) :
    resolveInterrupt s.cfg s.rf s.rf.curPrivilege = some (BitVec.ofNat 8 n, p) := by
  rw [resolveInterrupt_eq_firstInterrupt hirq, h]
  rfl

/-- Settles O26: the resolver is the search of R129, and the checks do not see what a composite drives besides. -/
theorem irqtakeTakesTheSelectedInterrupt : Obligations.IrqtakeTakesTheSelectedInterrupt := by
  intro s pc hl hirq
  refine ⟨fun q => decodePorts_irqtake, fun f h => ?_, fun t h => (exec_irqtake_mip_mie h).1, fun h => ?_,
    fun b p h => ?_⟩
  · rw [exec_irqtake_live hl] at h
    exact takeInterrupt_fault h
  · rw [exec_irqtake_live hl]
    exact takeInterrupt_of_none (by rw [resolveInterrupt_eq_firstInterrupt hirq, h]; rfl)
  · rw [exec_irqtake_live hl, takeInterrupt_of_some (resolved_of_firstInterrupt hirq h), exec_trapent_live hl, takeTrap,
      takeTrap]
    cases checkEntry s.cfg s.rf (privCode p) <;> rfl

/-- What the search finds is one of the sources (R129). -/
theorem mem_sourceOrder_of_firstInterrupt {n : Nat} {p q : Priv} (h : firstInterrupt s p = some (n, q)) :
    n ∈ sourceOrder := by
  simp only [firstInterrupt_eq_or, Option.or_eq_some_iff, Option.map_eq_some_iff, Option.ite_none_right_eq_some,
    Prod.mk.injEq] at h
  obtain ⟨_, ⟨-, hfind⟩, rfl, -⟩ | ⟨-, _, ⟨-, hfind⟩, rfl, -⟩ := h <;> exact List.mem_of_find?_eq_some hfind

/-- Every source's code fits the port, so the cause register holds it (R67). -/
theorem causeCode_source : ∀ n ∈ sourceOrder, causeCode (BitVec.ofNat 8 n) = BitVec.ofNat 63 n := by decide

/-- An IRQTAKE that takes an interrupt at a level and completes is an entry at that level (R109). -/
theorem enter_of_exec_irqtake {n : Nat} (hirq : s.cfg.irqBits = 0xAAA#64)
    (hfirst : firstInterrupt s s.rf.curPrivilege = some (n, trapLevelPriv l)) (h : exec (.irqtake pc) s = .next t) :
    t = s.enter l ⟨true, BitVec.ofNat 8 n, pc, none, none⟩
      { resValid := true, resCode := BitVec.ofNat 8 n, resPriv := privCode (trapLevelPriv l) } := by
  obtain ⟨-, h⟩ := whenLive_next.1 h
  rw [takeInterrupt_of_some (resolved_of_firstInterrupt hirq hfirst)] at h
  exact enter_of_takeTrap h

/-- Settles O27: with both MODEs usable it completes, and what it takes is an entry at the interrupt's level. -/
theorem irqtakeCompletes : Obligations.IrqtakeCompletes := by
  intro s pc hl hirq hm hs
  obtain ⟨t, ht⟩ := takeInterrupt_completes pc hm hs
  replace ht : exec (.irqtake pc) s = .next t := (exec_irqtake_live hl).trans ht
  obtain ⟨hmip, hmie⟩ := exec_irqtake_mip_mie ht
  have hcause {n p} (h : firstInterrupt s s.rf.curPrivilege = some (n, p)) :
      Cause.mk true (causeCode (BitVec.ofNat 8 n)) = ⟨true, BitVec.ofNat 63 n⟩ :=
    congrArg _ (causeCode_source n (mem_sourceOrder_of_firstInterrupt h))
  refine ⟨t, ht, hmip, hmie, fun n h => ?_, fun n h => ?_⟩
  · obtain rfl := enter_of_exec_irqtake (l := .machine) hirq h ht
    exact ⟨hcause h, rfl, rfl, rfl, rfl, rfl⟩
  · obtain rfl := enter_of_exec_irqtake (l := .supervisor) hirq h ht
    exact ⟨hcause h, rfl, rfl, rfl, rfl, rfl⟩

/-! ## The two composites, and all three entries -/

/-- Settles O28: what either composite enters is admitted, so only MODE can stop it. -/
theorem compositesStopOnlyOnReservedMode : Obligations.CompositesStopOnlyOnReservedMode := by
  rintro s i (⟨code, pc, info, ext, rfl⟩ | ⟨pc, rfl⟩) hl
  · rw [exec_exctake_live hl]
    exact ⟨fun f => takeException_fault, takeException_not_refused code pc info ext⟩
  · rw [exec_irqtake_live hl]
    exact ⟨fun f => takeInterrupt_fault, takeInterrupt_not_refused pc⟩

/-- Settles O23: each of the three is an entry, or an IRQTAKE that takes nothing. -/
theorem entryNeverLowersPrivilege : Obligations.EntryNeverLowersPrivilege := by
  rintro s t i (⟨tgt, isIntr, code, pc, info, ext, rfl⟩ | ⟨code, pc, info, ext, rfl⟩ | ⟨pc, rfl⟩) h
  · obtain ⟨-, h⟩ := whenLive_next.1 h
    obtain ⟨htgt, hhook, hle⟩ := takeTrap_privilege h
    refine ⟨?_, fun _ => hhook, hle⟩
    rintro _ _ _ _ _ _ ⟨⟩
    exact htgt
  · obtain ⟨-, h⟩ := whenLive_next.1 h
    obtain ⟨-, hhook, hle⟩ := takeTrap_privilege h
    exact ⟨nofun, fun _ => hhook, hle⟩
  · obtain ⟨-, h⟩ := whenLive_next.1 h
    cases hr : resolveInterrupt s.cfg s.rf s.rf.curPrivilege with
    | none =>
      rw [takeInterrupt_of_none hr] at h
      obtain rfl := Host.Outcome.next.inj h
      exact ⟨nofun, nofun, le_rfl⟩
    | some a =>
      rw [takeInterrupt_of_some hr] at h
      obtain ⟨-, hhook, hle⟩ := takeTrap_privilege h
      exact ⟨nofun, fun _ => hhook, hle⟩

end Sys2Proof.Machine
end

section
/-! Trap return: MRET and SRET, the return address, and a trap entry followed by its return (R113 to R119). -/

namespace Sys2Proof.Machine

variable {s t : State} {c : Config} {p : Priv} {v : Word} {b : Nat} {l : TrapLevel} {isIntr : Bool} {code : BitVec 8}
  {pc : Word} {info : Option Word} {ext : Option Nat}

/-! ## The return address (R117) -/

/-- A legal `PC_ALIGN_MASK` is all ones from bit 2 to the register's top bit (R8). -/
theorem getLsbD_pcAlignMask (h : c.Legal) (hb : 2 ≤ b) : c.pcAlignMask.getLsbD b = c.xlen.mask.getLsbD b := by
  obtain ⟨-, hmask⟩ := h
  have hlow : (3#64).getLsbD b = false := by
    rw [BitVec.getLsbD_ofNat, Nat.testBit_lt_two_pow (Nat.pow_le_pow_right (by decide : 0 < 2) hb), Bool.and_false]
  rw [← hmask, BitVec.getLsbD_or, hlow, Bool.or_false]

/-- Under legal parameters the alignment changes at most bits 1 and 0 (R117). -/
theorem getLsbD_alignPc (h : c.Legal) (hb : 2 ≤ b) : (alignPc c v).getLsbD b = (fit c v).getLsbD b := by
  rw [alignPc, fit_and, BitVec.getLsbD_and, getLsbD_pcAlignMask h hb, fit, BitVec.getLsbD_and, Bool.and_assoc,
    Bool.and_self]

/-- Alignment leaves an address alone that fits and has bits 1 and 0 clear (R119 (4)). -/
theorem alignPc_of_aligned (h : c.Legal) (hfit : fit c v = v) (h0 : v.getLsbD 0 = false) (h1 : v.getLsbD 1 = false) :
    alignPc c v = v := by
  refine BitVec.eq_of_getLsbD_eq fun i _ => ?_
  match i with
  | 0 => rw [alignPc, fit_and, hfit, BitVec.getLsbD_and, h0, Bool.false_and]
  | 1 => rw [alignPc, fit_and, hfit, BitVec.getLsbD_and, h1, Bool.false_and]
  | i + 2 => rw [getLsbD_alignPc h (Nat.le_add_left 2 i), hfit]

/-! ## MRET -/

/-- Command code 0x5 selects MRET (R61, R64). -/
theorem decodePorts_mret {q : Ports} (h : q.cmd = 0x5#4) : decodePorts q = .mret := by
  simp [decodePorts, h]

/-- What MRET leaves in mstatus, its MPRV as one bit (R113). -/
theorem leaveMachine_eq (c : Config) (p : Priv) (m : Mstatus) : m.leaveMachine c p = { m with
    mie := m.mpie, mpie := true, mpp := if c.haveU = true then 0b00#2 else 0b11#2,
    mprv := m.mprv && decide (p = .machine) } := by
  rw [Mstatus.leaveMachine]
  congr 1
  by_cases hp : p = .machine <;> simp [hp]

/-- The state an MRET to `p` leaves (R113). -/
abbrev State.leaveMachine (s : State) (p : Priv) : State :=
  (s.withRf { s.rf with mstatus := s.rf.mstatus.leaveMachine s.cfg p, curPrivilege := p }).withOut
    (returnResults (alignPc s.cfg s.rf.mepc))

theorem exec_mret_next : exec .mret s = .next t ↔ s.Live ∧ ∃ p, s.rf.mstatus.mpp = privCode p ∧ t = s.leaveMachine p := by
  rw [← machineReturn_next]
  exact whenLive_next

/-- MRET completes for every privilege MPP can code. -/
theorem exec_mret_eq (hl : s.Live) (hp : s.rf.mstatus.mpp = privCode p) : exec .mret s = .next (s.leaveMachine p) :=
  exec_mret_next.2 ⟨hl, p, hp, rfl⟩

/-- MRET is Fatal when MPP holds `0b10` (R113). -/
theorem exec_mret_invalid (hl : s.Live) (h : s.rf.mstatus.mpp = 0b10#2) : exec .mret s = .fault .privInvalid := by
  refine whenLive_fault.2 ⟨hl, ?_⟩
  rw [machineReturn, privOfCode_eq_none.2 h]

/-- Settles O30: the return of the operation, its mstatus written out. -/
theorem mretReturns : Obligations.MretReturns := by
  intro s hl
  refine ⟨fun q => decodePorts_mret, exec_mret_invalid hl, fun p hp => (exec_mret_eq hl hp).trans ?_⟩
  rw [State.leaveMachine, leaveMachine_eq]
  rfl

/-! ## SRET -/

/-- Command code 0x6 selects SRET (R61, R64). -/
theorem decodePorts_sret {q : Ports} (h : q.cmd = 0x6#4) : decodePorts q = .sret := by
  simp [decodePorts, h]

/-- The privilege an SRET returns to (R115). -/
abbrev RegFile.sretPrivilege (rf : RegFile) : Priv := if rf.mstatus.spp then .supervisor else .user

/-- The state an SRET leaves (R115). -/
abbrev State.leaveSupervisor (s : State) : State :=
  (s.withRf { s.rf with
    mstatus := s.rf.mstatus.leaveSupervisor s.rf.sretPrivilege, curPrivilege := s.rf.sretPrivilege }).withOut
    (returnResults (alignPc s.cfg s.rf.sepc))

theorem exec_sret_next : exec .sret s = .next t ↔ s.Live ∧ s.cfg.haveS = true ∧ t = s.leaveSupervisor := by
  rw [← supervisorReturn_next]
  exact whenLive_next

/-- With Supervisor configured SRET completes. -/
theorem exec_sret_eq (hl : s.Live) (hS : s.cfg.haveS = true) : exec .sret s = .next s.leaveSupervisor :=
  exec_sret_next.2 ⟨hl, hS, rfl⟩

/-- Without Supervisor SRET is Fatal (R116). -/
theorem exec_sret_noS (hl : s.Live) (h : s.cfg.haveS = false) : exec .sret s = .fault .sretNoS := by
  refine whenLive_fault.2 ⟨hl, ?_⟩
  rw [supervisorReturn, h]
  rfl

/-- An SRET always clears MPRV, because it never returns to M (R21). -/
theorem leaveSupervisor_sretPrivilege_mprv (rf : RegFile) (m : Mstatus) :
    (m.leaveSupervisor rf.sretPrivilege).mprv = false :=
  leaveSupervisor_mprv (sretPrivilege_ne_machine _) m

/-- Settles O31: the return of the operation, with MPRV clear. -/
theorem sretReturns : Obligations.SretReturns := by
  intro s hl
  refine ⟨fun q => decodePorts_sret, exec_sret_noS hl, fun hS => (exec_sret_eq hl hS).trans ?_⟩
  rw [State.leaveSupervisor, Mstatus.leaveSupervisor, if_neg (sretPrivilege_ne_machine _)]
  rfl

/-- Settles O32: each return drives its own epc, aligned. -/
theorem returnAddressKeepsUpperBits : Obligations.ReturnAddressKeepsUpperBits := by
  intro s t hc
  constructor
  · intro h b hb
    obtain ⟨-, p, -, rfl⟩ := exec_mret_next.1 h
    exact getLsbD_alignPc hc hb
  · intro h b hb
    obtain ⟨-, -, rfl⟩ := exec_sret_next.1 h
    exact getLsbD_alignPc hc hb

/-! ## A trap entry followed by its return (R119) -/

/-- A TRAPENT that completes is an entry at the level its target codes, which the state admits. -/
theorem exec_trapent_next (h : exec (.trapent (privCode (trapLevelPriv l)) isIntr code pc info ext) s = .next t) :
    s.Live ∧ s.Admits l ∧ t = s.enter l ⟨isIntr, code, pc, info, ext⟩ {} := by
  obtain ⟨hl, h⟩ := whenLive_next.1 h
  obtain ⟨l', hcheck, ht⟩ := takeTrap_next.1 h
  obtain ⟨htgt, -, hadmits⟩ := checkEntry_ok.1 hcheck
  obtain rfl := trapLevelCode_injective htgt
  exact ⟨hl, hadmits, ht⟩

/-- The address an entry saves for an aligned `pc` comes back from the return as it was (R119 (4)). -/
theorem alignPc_fit_of_aligned (h : c.Legal) (hfit : fit c pc = pc) (h0 : pc.getLsbD 0 = false)
    (h1 : pc.getLsbD 1 = false) : alignPc c (fit c pc) = pc := by
  rw [hfit, alignPc_of_aligned h hfit h0 h1]

/-- Settles O33: the entry leaves the old privilege in MPP, so the MRET completes and returns to it. -/
theorem machineTrapRoundTrip : Obligations.MachineTrapRoundTrip := by
  intro s t isIntr code pc info ext h
  obtain ⟨hl, -, rfl⟩ := exec_trapent_next (l := .machine) h
  exact ⟨_, exec_mret_eq (p := s.rf.curPrivilege) hl rfl, rfl, rfl, rfl, rfl, rfl, rfl, rfl,
    fun hbelow => leaveMachine_mprv _ hbelow _, alignPc_fit_of_aligned, rfl, rfl, rfl, rfl, rfl, rfl⟩

/-- The SPP an entry to S leaves codes the old privilege, which is U or S (R102, R115). -/
theorem sretPrivilege_commitSupervisor {tc : TrapContext} {rf : RegFile} (h : rf.curPrivilege ≠ .machine) :
    (commitSupervisor c tc rf).sretPrivilege = rf.curPrivilege := by
  rw [RegFile.sretPrivilege, commitSupervisor_mstatus, Mstatus.enterSupervisor]
  cases hp : rf.curPrivilege with
  | machine => exact absurd hp h
  | user | supervisor => rfl

/-- Settles O34: the entry is admitted from below M only, so SPP codes the old privilege and the SRET returns to it. -/
theorem supervisorTrapRoundTrip : Obligations.SupervisorTrapRoundTrip := by
  intro s t isIntr code pc info ext h
  obtain ⟨hl, hadmits, rfl⟩ := exec_trapent_next (l := .supervisor) h
  obtain ⟨hS, hbelow⟩ := hadmits rfl
  exact ⟨_, exec_sret_eq hl hS, sretPrivilege_commitSupervisor hbelow, rfl, rfl, rfl,
    leaveSupervisor_sretPrivilege_mprv _ _, rfl, rfl, rfl, alignPc_fit_of_aligned⟩

end Sys2Proof.Machine
end

section
/-! The first step of an instruction and the one after it: the interrupt question before it (R128, R131, R157), and what the
caller presents after CSRCHK (R83, R155). -/

namespace Sys2Proof.Machine

variable {s t : State} {a : HartAct} {rest : List Input} {ctx : Caller}

/-! ## The interrupt question (R131) -/

/-- With an instruction step of the hart presented first, the step is the interrupt question (R131). -/
theorem step_hartStep (hin : s.inputs = .hartStep a :: rest) : step s = beginHartStep a (s.withInputs rest) := by
  simp only [step, hin, decode]

/-- A word outside R74 stops the step that reaches it. -/
theorem step_outsideWord {w : BitVec 32} (hd : decodeInsn w ctx = none) (hin : s.inputs = .insn w ctx :: rest) :
    step s = .refused (.outsideWord w) := by
  simp only [step, hin, decode, hd]

/-- If no interrupt is let through, nothing is driven and what the instruction presents comes next (R131). -/
theorem beginHartStep_of_none (hl : s.Live) (h : resolveInterrupt s.cfg s.rf s.rf.curPrivilege = none) :
    beginHartStep a s = .next ((s.withOut {}).withInputs (followUp a ++ s.inputs)) := by
  have hq : execIrqtake a.pc s = .next (s.withOut {}) := (whenLive_live hl _).trans (takeInterrupt_of_none h)
  simp only [beginHartStep, hq]
  rfl

/-- If an interrupt is let through, the question is an IRQTAKE and no more (R128). -/
theorem beginHartStep_of_interrupt (h : resolveInterrupt s.cfg s.rf s.rf.curPrivilege ≠ none) :
    beginHartStep a s = exec (.irqtake a.pc) s := by
  show _ = execIrqtake a.pc s
  rw [beginHartStep]
  cases hq : execIrqtake a.pc s with
  | next t =>
    obtain ⟨-, htake⟩ := whenLive_next.1 hq
    exact congrArg Host.Outcome.next (if_pos ((takeInterrupt_resValid htake).2 h))
  | fault f => rfl
  | refused r => rfl

/-- Settles O49: the question by what the search of R129 finds, and then the input the instruction presents. -/
theorem hartStepAsksForAnInterruptFirst : Obligations.HartStepAsksForAnInterruptFirst := by
  intro s a rest hl hirq hin
  have hresolve : resolveInterrupt s.cfg s.rf s.rf.curPrivilege = none ↔ firstInterrupt s s.rf.curPrivilege = none := by
    rw [resolveInterrupt_eq_firstInterrupt hirq, Option.map_eq_none_iff]
  rw [step_hartStep hin]
  refine ⟨fun h => beginHartStep_of_interrupt (mt hresolve.1 h), fun h =>
    ⟨followUp a, beginHartStep_of_none hl (hresolve.2 h), ?word, ?outside, ?raises, ?quiet⟩⟩
  case word =>
    rintro w ctx i rfl hd
    exact step_decoded rfl (decode_word hd)
  case outside =>
    rintro w ctx rfl hd
    exact step_outsideWord hd rfl
  case raises =>
    rintro code pc info ext rfl
    exact step_decoded rfl (decodeAfterEncode _)
  case quiet =>
    rintro pc rfl
    rfl

/-! ## A CSR instruction and the step after it (R83, R155) -/

/-- After a refused access the next step is EXCTAKE for an illegal instruction (R83). -/
theorem step_afterCheck_illegal {c : Config} {allowed w : Bool} (hin : t.inputs = afterCheck c allowed w ctx ++ rest)
    (h : ctx.csrDefined = false ∨ allowed = false) :
    step t = exec (.exctake c.illegalCode ctx.pc ctx.info ctx.ext) (t.withInputs rest) := by
  rw [afterCheck_illegal h] at hin
  exact step_decoded hin (decodeAfterEncode _)

/-- After a granted access of one write the next step is that write (R83). -/
theorem step_afterCheck_granted {c : Config} {v : Write} (hin : t.inputs = afterCheck c true true ctx ++ rest)
    (hd : ctx.csrDefined = true) (hv : ctx.writes = [v]) : step t = .next (writerCycle v (t.withInputs rest)) := by
  rw [afterCheck_granted hd, hv] at hin
  exact step_writer hin

/-- Settles O48: the step presents CSRCHK as a write, and the next one is the first input that puts before the others. -/
theorem csrrwTrapsOrWritesInTheNextStep : Obligations.CsrrwTrapsOrWritesInTheNextStep := by
  intro s csr rs1 rd ctx rest hl hin
  have hcheck : step s = presentCheck csr true ctx (s.withInputs rest) :=
    (step_decoded hin (decodeAfterEncode (.rvCsrrw csr rs1 rd ctx))).trans (whenLive_live hl _)
  refine ⟨_, hcheck, rfl, rfl, rfl, step_afterCheck_illegal rfl, fun v hd ha hv => ?_⟩
  have hallowed : canAccess s.cfg s.rf csr s.rf.curPrivilege true = true := ha
  exact step_afterCheck_granted (congrArg (fun b => afterCheck s.cfg b true ctx ++ rest) hallowed) hd hv

end Sys2Proof.Machine
end

section
/-! Privilege and pending interrupts: the privilege rises only by trap entry (R139), and an interrupt that nobody clears is
selected again (R126). -/

namespace Sys2Proof.Machine

variable {s t : State} {pc : Word}

/-- An SRET returns to S or to U, so not above the privilege of a caller that may present it (R115, R153). -/
theorem sretPrivilege_le {p : Priv} (hp : p ≠ .user) (rf : RegFile) :
    (privCode rf.sretPrivilege).toNat ≤ (privCode p).toNat := by
  unfold RegFile.sretPrivilege
  cases rf.mstatus.spp <;> cases p
  case false.user | true.user => exact absurd rfl hp
  all_goals decide

/-- Settles O42: of the five shapes of a completed instruction, an answer and the caller's CSRCHK leave the privilege alone, a
checked return does not raise it, and a trap entry tells the hook its target. -/
theorem privilegeRisesOnlyByTrapEntry : Obligations.PrivilegeRisesOnlyByTrapEntry := by
  intro s t i h hmret hsret hrise
  obtain ⟨-, hshape⟩ := exec_next_shape h
  cases hshape
  case answered | checked => exact absurd hrise (lt_irrefl _)
  case entered l tc base _ _ _ _ => cases l <;> exact ⟨rfl, rfl⟩
  case mretDone p _ hi =>
    have hcur : s.rf.curPrivilege = .machine := hi.elim hmret And.right
    rw [hcur] at hrise
    exact absurd hrise (privCode_le_machine p).not_gt
  case sretDone _ hi =>
    have hcur : s.rf.curPrivilege ≠ .user := hi.elim hsret And.right
    exact absurd hrise (sretPrivilege_le hcur s.rf).not_gt

/-- An IRQTAKE that names M as its target is an entry at M (R109). -/
theorem enter_of_exec_irqtake_machine (h : exec (.irqtake pc) s = .next t) (hM : t.out.resPriv = privCode .machine) :
    ∃ tc base, t = s.enter .machine tc base := by
  obtain ⟨-, h⟩ := whenLive_next.1 h
  obtain ⟨-, rfl⟩ | ⟨code, l, -, -, rfl⟩ := takeInterrupt_next h
  · cases hM
  · cases l with
    | machine => exact ⟨_, _, rfl⟩
    | supervisor => cases hM

/-- What IRQRES drives is what the resolver answers (R89). -/
theorem resultPorts_irqres_congr {p : Priv} (hs : s.Live) (ht : t.Live)
    (h : resolveInterrupt t.cfg t.rf p = resolveInterrupt s.cfg s.rf p) :
    resultPorts (exec (.irqres (privCode p)) t) = resultPorts (exec (.irqres (privCode p)) s) := by
  rw [exec_irqres_eq hs, exec_irqres_eq ht, h]
  rfl

/-- Settles O44: the entry saves MIE in MPIE and the privilege in MPP, and MRET brings both back, so the resolver reads what it
read before. -/
theorem unclearedInterruptIsSelectedAgain : Obligations.UnclearedInterruptIsSelectedAgain := by
  intro s t u pc hirq hM hmret
  obtain ⟨hl, -⟩ := whenLive_next.1 hirq
  obtain ⟨tc, base, rfl⟩ := enter_of_exec_irqtake_machine hirq hM
  obtain ⟨-, p, hp, rfl⟩ := exec_mret_next.1 hmret
  obtain rfl : s.rf.curPrivilege = p := privCode_injective hp
  exact ⟨rfl, resultPorts_irqres_congr hl hl (resolveInterrupt_congr rfl rfl rfl rfl rfl)⟩

end Sys2Proof.Machine
end

section
/-! Careful callers: from a state whose callers and writers keep their duties every step answers a next state of the same kind
(R41, R71, R131, R135, R150, R153, R154, R157). -/

namespace Sys2Proof.Machine

variable {s t : State} {i : Instr} {e : Input} {rest : List Input} {ctx : Caller}

/-! ## The two halves of a careful state -/

/-- What a careful state owes beside its inputs: the latch clear, a privilege in MPP, and no reserved MODE. -/
abbrev State.Guarded (s : State) : Prop :=
  s.Live ∧ s.rf.mstatus.mpp ≠ 0b10#2 ∧ s.rf.mtvec.getLsbD 1 = false ∧ s.rf.stvec.getLsbD 1 = false

theorem careful_iff : s.Careful ↔ s.Guarded ∧ inputsChecked s = true := by
  simp only [State.Careful, State.Guarded, modeReserved_iff, and_assoc]

/-! ## Duties -/

/-- A decoded input owes what its instruction owes in this state. -/
theorem firstChecked_decoded (hd : decode e = .ok i) : firstChecked s e = dutyNow s i := by
  simp only [firstChecked, hd]

theorem inputsChecked_cons (hin : s.inputs = e :: rest) :
    inputsChecked s = true ↔ firstChecked s e = true ∧ rest.all inputChecked = true := by
  simp only [inputsChecked, hin, Bool.and_eq_true]

/-- The duties of a command do not depend on what is presented after it. -/
theorem dutyNow_withInputs (i : Instr) : dutyNow (s.withInputs rest) i = dutyNow s i := by
  cases i <;> rfl

/-- A command that may be presented at any time owes nothing that depends on the state. -/
theorem dutyNow_of_instrChecked (h : instrChecked i = true) : dutyNow s i = true := by
  cases i
  case csrchk | irqsel | irqres | excres | irqtake => exact h
  all_goals cases h

/-- A caller-side instruction owes the interrupt question and the writes of its data path (R157, R159). -/
theorem dutyNow_caller (hx : callerOf i = some ctx) :
    dutyNow s i = true ↔ noInterrupt s = true ∧ ctx.writes.all writeChecked = true := by
  rw [← Bool.and_eq_true]
  cases i <;> cases hx <;> rfl

/-- An input that may be presented in any state may be presented in this one. -/
theorem firstChecked_of_inputChecked (h : inputChecked e = true) : firstChecked s e = true := by
  unfold firstChecked
  split
  next i hd =>
    simp only [inputChecked, hd] at h
    exact dutyNow_of_instrChecked h
  next => exact h

theorem inputsChecked_of_all (h : s.inputs.all inputChecked = true) : inputsChecked s = true := by
  cases hin : s.inputs with
  | nil => simp only [inputsChecked, hin]
  | cons e rest =>
    rw [hin, List.all_cons, Bool.and_eq_true] at h
    exact (inputsChecked_cons hin).2 ⟨firstChecked_of_inputChecked h.1, h.2⟩

/-- What the caller presents after CSRCHK keeps its duties: checked writes, or an EXCTAKE where no interrupt waits (R83). -/
theorem inputsChecked_afterCheck {c : Config} {allowed w : Bool} (hin : s.inputs = afterCheck c allowed w ctx ++ rest)
    (hn : noInterrupt s = true) (hw : ctx.writes.all writeChecked = true) (hrest : rest.all inputChecked = true) :
    inputsChecked s = true := by
  unfold afterCheck at hin
  split at hin
  · have hfirst : (if w then ctx.writes.map Input.writer else []).all inputChecked = true := by
      split
      · rw [List.all_map]
        exact hw
      · rfl
    exact inputsChecked_of_all (by rw [hin, List.all_append, hfirst, hrest]; rfl)
  · exact (inputsChecked_cons hin).2 ⟨(firstChecked_decoded (decodeAfterEncode _)).trans hn, hrest⟩

/-- What an instruction presents once no interrupt preempts it keeps the caller's duties (R131). -/
theorem inputsChecked_followUp {a : HartAct} (hin : s.inputs = followUp a ++ rest) (hn : noInterrupt s = true)
    (ha : actChecked a = true) (hrest : rest.all inputChecked = true) : inputsChecked s = true := by
  cases a with
  | word w ctx =>
    obtain ⟨hword, hw⟩ := Bool.and_eq_true_iff.1 ha
    obtain ⟨i, hi⟩ := Option.isSome_iff_exists.1 hword
    have hduty : dutyNow s i = true := (dutyNow_caller (callerOf_decodeInsn hi)).2 ⟨hn, hw⟩
    exact (inputsChecked_cons hin).2 ⟨(firstChecked_decoded (decode_word hi)).trans hduty, hrest⟩
  | raises code pc info ext =>
    exact (inputsChecked_cons hin).2 ⟨(firstChecked_decoded (decodeAfterEncode _)).trans hn, hrest⟩
  | quiet pc => exact inputsChecked_of_all (hin ▸ hrest)

/-- After a completed instruction the others' inputs come first, or what the caller presents after its CSRCHK. -/
theorem Shape.inputsChecked (h : Shape s i t) (hduty : dutyNow s i = true) (hin : s.inputs.all inputChecked = true) :
    inputsChecked t = true := by
  cases h
  case answered | entered | mretDone | sretDone => exact inputsChecked_of_all hin
  case checked ctx _ hx =>
    obtain ⟨hn, hw⟩ := (dutyNow_caller hx).1 hduty
    exact inputsChecked_afterCheck rfl hn hw hin

/-! ## Cycles and instructions that keep a state guarded -/

theorem State.Guarded.writerCycle {w : Write} (h : s.Guarded) (hw : writeChecked w = true) : (writerCycle w s).Guarded := by
  obtain ⟨hl, hmpp, hm, hs⟩ := h
  exact ⟨hl, applyWrite_mpp w (writeLegal_of_checked hw) hmpp, applyWrite_mode w hw hm hs⟩

theorem State.guarded_resetCycle (s : State) : (resetCycle s).Guarded :=
  ⟨rfl, legalMpp_ne_invalid _, legalTvec_bit1 _ _, legalTvec_bit1 _ _⟩

/-- A completed instruction leaves a privilege in MPP (R20). -/
theorem Shape.mpp (h : Shape s i t) (hmpp : s.rf.mstatus.mpp ≠ 0b10#2) : t.rf.mstatus.mpp ≠ 0b10#2 := by
  cases h
  case answered | sretDone | checked => exact hmpp
  case entered l tc base _ _ _ _ => exact commitTrap_mpp _ l tc hmpp
  case mretDone => exact leaveMachine_mpp _ _ _

theorem State.Guarded.exec (h : s.Guarded) (he : exec i s = .next t) : t.Guarded := by
  obtain ⟨hl, hmpp, hm, hs⟩ := h
  obtain ⟨-, hshape⟩ := exec_next_shape he
  obtain ⟨-, hlatch, -, -, -, -, -, hmtvec, hstvec, -⟩ := noInstructionWritesGatesOrMasks s t i he
  exact ⟨(congrArg FatalLatch.fatal hlatch).trans hl, hshape.mpp hmpp, hmtvec ▸ hm, hstvec ▸ hs⟩

/-! ## Where an instruction completes -/

/-- A TRAPENT with the answer of a resolver completes: the state admits that target (R96 (5), R157). -/
theorem takeTrap_completes_of_answer {tgt : BitVec 2} {isIntr : Bool} {code : BitVec 8} (tc : TrapContext) (base : Results)
    (h : s.Guarded) (ha : carriesAnswer s tgt isIntr code = true) : ∃ t, takeTrap tgt tc base s = .next t := by
  obtain ⟨-, -, hm, hs⟩ := h
  obtain ⟨l, rfl, hadmits⟩ : ∃ l, tgt = privCode (trapLevelPriv l) ∧ s.Admits l := by
    cases isIntr with
    | true =>
      obtain ⟨⟨_, p⟩, hr, hans⟩ := Option.map_eq_some_iff.1 (of_decide_eq_true ha)
      obtain ⟨l, rfl, hadmits⟩ := resolveInterrupt_admits hr
      exact ⟨l, (congrArg Prod.snd hans).symm, hadmits⟩
    | false =>
      obtain ⟨-, htgt⟩ := Bool.and_eq_true_iff.1 ha
      obtain ⟨l, hlevel⟩ := resolveException_level s.cfg s.rf code s.rf.curPrivilege
      exact ⟨l, hlevel ▸ of_decide_eq_true htgt, admits_of_resolveException hlevel⟩
  have hmode : (tvecOf s.rf l).getLsbD 1 = false := by
    cases l with
    | machine => exact hm
    | supervisor => exact hs
  exact ⟨s.enter l tc base, by rw [takeTrap_of_admits hadmits, hmode]; rfl⟩

theorem exec_mret_completes (h : s.Guarded) : ∃ t, exec .mret s = .next t := by
  obtain ⟨hl, hmpp, -, -⟩ := h
  obtain ⟨t, ht⟩ := machineReturn_completes hmpp
  exact ⟨t, whenLive_next.2 ⟨hl, ht⟩⟩

theorem exec_exctake_completes (h : s.Guarded) (code : BitVec 8) (pc : Word) (info : Option Word) (ext : Option Nat) :
    ∃ t, exec (.exctake code pc info ext) s = .next t := by
  obtain ⟨hl, -, hm, hs⟩ := h
  obtain ⟨t, ht⟩ := takeException_completes code pc info ext hm hs
  exact ⟨t, whenLive_next.2 ⟨hl, ht⟩⟩

/-- RV.MRET completes: it is MRET, or EXCTAKE where its check fails (R154). -/
theorem exec_rvMret_completes (h : s.Guarded) : ∃ t, exec (.rvMret ctx) s = .next t := by
  by_cases hM : s.rf.curPrivilege = .machine
  · rw [exec_rvMret_of_machine hM]
    exact exec_mret_completes h
  · rw [exec_rvMret_below_machine hM]
    exact exec_exctake_completes h _ _ _ _

/-- RV.SRET completes: it is SRET with Supervisor configured, or EXCTAKE where its check fails (R153). -/
theorem exec_rvSret_completes (h : s.Guarded) : ∃ t, exec (.rvSret ctx) s = .next t := by
  by_cases hno : s.cfg.haveS = false ∨ s.rf.curPrivilege = .user
  · rw [exec_rvSret_of_not_check hno]
    exact exec_exctake_completes h _ _ _ _
  · obtain ⟨hS, hp⟩ := not_or.1 hno
    rw [Bool.not_eq_false] at hS
    have ⟨hl, _⟩ := h
    exact ⟨_, (exec_rvSret_of_check hS hp).trans (exec_sret_eq hl hS)⟩

/-- A privilege operand that is not `0b10` codes a privilege (R71). -/
theorem exists_privCode {b : BitVec 2} (h : decide (b ≠ 0b10#2) = true) : ∃ p, b = privCode p :=
  (privCode_or_invalid b).resolve_right (of_decide_eq_true h)

/-- An instruction whose duties are kept is neither Fatal nor Refused in a guarded state (R135). -/
theorem exec_completes (h : s.Guarded) (hduty : dutyNow s i = true) : ∃ t, exec i s = .next t := by
  have ⟨hl, _, hm, hs⟩ := h
  cases i
  case csrchk csr b w =>
    obtain ⟨p, rfl⟩ := exists_privCode hduty
    exact ⟨_, exec_csrchk_eq hl rfl⟩
  case irqsel mask =>
    cases hsel : selectPending (fit s.cfg mask &&& s.cfg.irqBits) <;>
      exact ⟨_, whenLive_next.2 ⟨hl, by rw [hsel]; rfl⟩⟩
  case irqres b =>
    obtain ⟨p, rfl⟩ := exists_privCode hduty
    exact ⟨_, exec_irqres_eq hl p⟩
  case excres code b =>
    obtain ⟨p, rfl⟩ := exists_privCode hduty
    exact ⟨_, exec_excres_eq hl code p⟩
  case trapent =>
    obtain ⟨t, ht⟩ := takeTrap_completes_of_answer _ _ h hduty
    exact ⟨t, whenLive_next.2 ⟨hl, ht⟩⟩
  case mret => exact exec_mret_completes h
  case sret =>
    simp only [dutyNow, Bool.and_eq_true] at hduty
    obtain ⟨⟨-, hS⟩, -⟩ := hduty
    exact ⟨_, exec_sret_eq hl hS⟩
  case exctake => exact exec_exctake_completes h _ _ _ _
  case irqtake pc =>
    obtain ⟨t, ht⟩ := takeInterrupt_completes pc hm hs
    exact ⟨t, whenLive_next.2 ⟨hl, ht⟩⟩
  case rvMret => exact exec_rvMret_completes h
  case rvSret => exact exec_rvSret_completes h
  case rvCsrrw | rvCsrrs | rvCsrrc | rvCsrrwi | rvCsrrsi | rvCsrrci => exact ⟨_, whenLive_live hl _⟩
  all_goals cases hduty

/-! ## Progress and preservation -/

/-- Progress and preservation for an instruction (R135). -/
theorem exec_keeps_careful (h : s.Guarded) (hduty : dutyNow s i = true) (hin : s.inputs.all inputChecked = true) :
    ∃ t, exec i s = .next t ∧ t.Careful := by
  obtain ⟨t, ht⟩ := exec_completes h hduty
  obtain ⟨-, hshape⟩ := exec_next_shape ht
  exact ⟨t, ht, careful_iff.2 ⟨h.exec ht, hshape.inputsChecked hduty hin⟩⟩

/-- Progress and preservation for the start of an instruction step: an IRQTAKE, or what comes after no interrupt (R131). -/
theorem beginHartStep_keeps_careful {a : HartAct} (h : s.Guarded) (ha : actChecked a = true)
    (hin : s.inputs.all inputChecked = true) : ∃ t, beginHartStep a s = .next t ∧ t.Careful := by
  by_cases hr : resolveInterrupt s.cfg s.rf s.rf.curPrivilege = none
  · have ⟨hl, _⟩ := h
    exact ⟨_, beginHartStep_of_none hl hr,
      careful_iff.2 ⟨h, inputsChecked_followUp rfl (decide_eq_true hr) ha hin⟩⟩
  · rw [beginHartStep_of_interrupt hr]
    exact exec_keeps_careful h rfl hin

/-- Settles O55, by the kinds of input presented first: each is answered, and leaves a guarded state with checked inputs. -/
theorem stepKeepsCareful : Obligations.StepKeepsCareful := by
  intro s h
  obtain ⟨hg, hinputs⟩ := careful_iff.1 h
  cases hin : s.inputs with
  | nil => exact ⟨_, step_nothing hin, careful_iff.2 ⟨hg, hinputs⟩⟩
  | cons e rest =>
    obtain ⟨he, hrest⟩ := (inputsChecked_cons hin).1 hinputs
    have hg' : (s.withInputs rest).Guarded := hg
    have careful {t : State} (ht : t.Guarded) (hti : t.inputs = rest) : t.Careful :=
      careful_iff.2 ⟨ht, inputsChecked_of_all (hti ▸ hrest)⟩
    have decoded {i : Instr} (hd : decode e = .ok i) : ∃ t, step s = .next t ∧ t.Careful := by
      rw [step_decoded hin hd]
      rw [firstChecked_decoded hd, ← dutyNow_withInputs (rest := rest)] at he
      exact exec_keeps_careful hg' he hrest
    cases e with
    | cycle p =>
      obtain hd | hd | hd := decode_cycle p
      · exact ⟨_, step_reset hin hd, careful (State.guarded_resetCycle _) rfl⟩
      · exact ⟨_, step_idle hin hd, careful hg' rfl⟩
      · exact decoded hd
    | hartStep a =>
      rw [step_hartStep hin]
      exact beginHartStep_keeps_careful hg' he hrest
    | insn w ctx =>
      obtain ⟨i, -, hd⟩ | hd := decode_insn w ctx
      · exact decoded hd
      · simp only [firstChecked, inputChecked, hd, reduceCtorEq] at he
    | writer w => exact ⟨_, step_writer hin, careful (hg'.writerCycle he) rfl⟩

/-- A run goes on from the state its first step answers. -/
theorem run_succ_of_step {n : Nat} (h : step s = .next t) :
    Host.Core.run Sys2Proof.core (n + 1) s = Host.Core.run Sys2Proof.core n t := by
  have hstep : Sys2Proof.core.step s = .next t := h
  simp only [Host.Core.run, hstep]

/-- Settles O56, by induction on the number of steps: each is answered and leaves a careful state. -/
theorem carefulCallersNeverStop : Obligations.CarefulCallersNeverStop := by
  intro n
  induction n with
  | zero => exact fun s _ => ⟨s, rfl⟩
  | succ n ih =>
    intro s h
    obtain ⟨t, ht, hcareful⟩ := stepKeepsCareful s h
    obtain ⟨u, hu⟩ := ih t hcareful
    exact ⟨u, (run_succ_of_step ht).trans hu⟩

end Sys2Proof.Machine
end

section
/-! A reset cycle (R42, R147), and that no interrupt is taken and no exception delegated after it (R149). -/

namespace Sys2Proof.Machine

variable {s : State} {c : Config} {rf : RegFile}

/-- With `rst` = 1 the step is the reset cycle, whatever command stands on the port (R147). -/
theorem step_rst {p : Ports} {rest : List Input} (hin : s.inputs = .cycle p :: rest) (hr : p.rst = true) :
    step s = .next (resetCycle (s.withInputs rest)) :=
  step_reset hin (decode_eq_resetCycle.2 ⟨p, rfl, hr⟩)

/-- Settles O7: the step is the reset cycle. The free fields are legal by the laws of `legalMpp` and `legalTvec`, and within their
widths by `resetRf_fits`; every other field has its value by definition. -/
theorem resetCycleRecreatesRegisterFile : Obligations.ResetCycleRecreatesRegisterFile := fun _ _ _ hin hr =>
  ⟨_, step_rst hin hr, rfl, rfl, rfl, rfl, rfl, rfl, rfl, rfl, rfl, rfl, rfl, rfl, rfl, rfl, rfl, rfl,
    legalMpp_ne_invalid _, legalTvec_bit1 _ _, legalTvec_bit1 _ _, resetRf_fits _ _⟩

/-- With no source enabled there is no candidate of either owner, so no interrupt is selected (R90, R92). -/
theorem resolveInterrupt_of_mie_zero (h : rf.mie = 0#64) (p : Priv) : resolveInterrupt c rf p = none := by
  have hpend : pendingEnabled c rf = 0#64 := by rw [pendingEnabled, h, BitVec.and_zero, BitVec.zero_and]
  have hM : machineOwned c rf = 0#64 := by rw [machineOwned, hpend, BitVec.zero_and]
  have hS : supervisorOwned c rf = 0#64 := by rw [supervisorOwned, hpend, BitVec.zero_and]
  simp [resolveInterrupt, hM, hS]

/-- With no code delegated every exception resolves to Machine (R93). -/
theorem resolveException_of_medeleg_zero (h : rf.medeleg = 0#64) (code : BitVec 8) (p : Priv) :
    resolveException c rf code p = .machine := by
  have hd : exceptionDelegated c rf code ≠ true := by simp [exceptionDelegated_iff, h]
  rw [resolveException_eq, if_neg (not_and_of_not_left _ hd)]

/-- Settles O8: after the reset cycle no source is enabled and no code is delegated. -/
theorem nothingIsTakenOrDelegatedAfterReset : Obligations.NothingIsTakenOrDelegatedAfterReset := by
  intro s t p rest hin hr hstep
  obtain ⟨hl, hmie, hmedeleg⟩ : t.Live ∧ t.rf.mie = 0#64 ∧ t.rf.medeleg = 0#64 := by
    rw [step_rst hin hr] at hstep
    obtain rfl := Host.Outcome.next.inj hstep
    exact ⟨rfl, rfl, rfl⟩
  have hnone := resolveInterrupt_of_mie_zero (c := t.cfg) hmie
  refine ⟨fun pc => (exec_irqtake_live hl).trans (takeInterrupt_of_none (hnone _)), fun q => ?_, fun code q => ?_⟩
  · rw [exec_irqres_eq hl, hnone]
    rfl
  · rw [exec_excres_eq hl, resolveException_of_medeleg_zero hmedeleg]
    rfl

end Sys2Proof.Machine
end

section
/-! The two-command form: TRAPENT with the answer of IRQRES or EXCRES, in a state that other agents may have written to since
(R157). -/

namespace Sys2Proof.Machine

variable {s t u : State} {l : TrapLevel} {f : Fault} {isIntr : Bool} {code : BitVec 8} {pc : Word} {info : Option Word}
  {ext : Option Nat} {p : Priv}

/-- Which levels a state admits depends on the parameters and the privilege alone, which no other agent writes (R41). -/
theorem State.Admits.congr (h : s.Admits l) (hc : t.cfg = s.cfg) (hp : t.rf.curPrivilege = s.rf.curPrivilege) :
    t.Admits l := by
  rwa [State.Admits, hc, hp]

/-- TRAPENT to a level the state admits has no Fatal outcome but `TVEC_MODE` (R96 (5), R98). -/
theorem exec_trapent_fault_of_admits (h : s.Admits l)
    (hf : exec (.trapent (privCode (trapLevelPriv l)) isIntr code pc info ext) s = .fault f) : f = .tvecMode :=
  takeTrap_fault_of_admits h (whenLive_fault.1 hf).2

/-- What IRQRES drives on `res_code` is the code the resolver answers (R89). -/
theorem resCode_of_exec_irqres (h : exec (.irqres (privCode p)) s = .next u) {tgt : Priv}
    (hr : resolveInterrupt s.cfg s.rf p = some (code, tgt)) : u.out.resCode = code := by
  obtain ⟨hl, -⟩ := whenLive_next.1 h
  rw [exec_irqres_eq hl, hr] at h
  obtain rfl := Host.Outcome.next.inj h
  rfl

/-- What EXCRES drives on `res_priv` is the answer of the resolver (R95). -/
theorem resPriv_of_exec_excres (h : exec (.excres code (privCode p)) s = .next u) :
    u.out.resPriv = privCode (resolveException s.cfg s.rf code p) := by
  obtain ⟨hl, -⟩ := whenLive_next.1 h
  rw [exec_excres_eq hl] at h
  obtain rfl := Host.Outcome.next.inj h
  rfl

/-- IRQTAKE is the entry for the interrupt the resolver answers, with the resolver's ports driven as well (R109). -/
theorem exec_irqtake_eq_trapent (hl : s.Live)
    (hr : resolveInterrupt s.cfg s.rf s.rf.curPrivilege = some (code, p)) :
    exec (.irqtake pc) s =
      match exec (.trapent (privCode p) true code pc none none) s with
      | .next x => .next { x with out := { x.out with resValid := true, resCode := code, resPriv := privCode p } }
      | .fault f => .fault f
      | .refused r => .refused r := by
  rw [exec_irqtake_live hl, takeInterrupt_of_some hr, exec_trapent_live hl, takeTrap, takeTrap]
  cases checkEntry s.cfg s.rf (privCode p) <;> rfl

/-- EXCTAKE is the entry at the level the resolver answers, with `res_priv` driven as well (R108). -/
theorem exec_exctake_eq_trapent (hl : s.Live) (hr : resolveException s.cfg s.rf code s.rf.curPrivilege = p) :
    exec (.exctake code pc info ext) s =
      match exec (.trapent (privCode p) false code pc info ext) s with
      | .next x => .next { x with out := { x.out with resPriv := privCode p } }
      | .fault f => .fault f
      | .refused r => .refused r := by
  obtain ⟨-, -, tgt, hports, heq⟩ := exctakeChainsResolverAndEntry s code pc info ext hl
  obtain rfl : privCode p = tgt := by
    rw [exec_excres_eq hl, hr] at hports
    exact congrArg Results.resPriv hports
  exact heq

/-- Settles O50: the target was admitted in `s`, and `v` has the same parameters and privilege; where the registers the resolver
reads are equal too, it answers the same in `v`. -/
theorem twoCommandFormIsTheComposite : Obligations.TwoCommandFormIsTheComposite := by
  intro s u v pc _ hv hcfg hpriv
  constructor
  · intro hres hvalid
    obtain ⟨code, tgt, hr, htgt⟩ := resolved_of_exec_irqres hres hvalid
    rw [htgt, resCode_of_exec_irqres hres hr]
    refine ⟨fun f hf => ?_, fun hmip hmie hmideleg hMIE hSIE => exec_irqtake_eq_trapent hv ?_⟩
    · obtain ⟨l, rfl, hadmits⟩ := resolveInterrupt_admits hr
      exact exec_trapent_fault_of_admits (hadmits.congr hcfg hpriv) hf
    · rw [hcfg, hpriv, resolveInterrupt_congr hmip hmie hmideleg hMIE hSIE, hr]
  · intro code info ext hres
    rw [resPriv_of_exec_excres hres]
    refine ⟨fun f hf => ?_, fun hmedeleg => exec_exctake_eq_trapent hv ?_⟩
    · obtain ⟨l, hlevel⟩ := resolveException_level s.cfg s.rf code s.rf.curPrivilege
      rw [hlevel] at hf
      exact exec_trapent_fault_of_admits ((admits_of_resolveException hlevel).congr hcfg hpriv) hf
    · rw [hcfg, hpriv, resolveException_congr hmedeleg]

end Sys2Proof.Machine
end
